-- ==== Sys2Proof/Config.lean ====
section
/-! DEFINITION. The OPEN implementation parameters of 00_scope.md R7: arguments of the model, never numbers it picks.
They are held as one plain-data field of State that no step changes (R20, R27), so every statement about every state is
a statement about every implementation (log entry 1). -/

namespace Sys2Proof

/-- The OPEN parameters of R7.  `none` is "unbounded". -/
structure Params where
  /-- `MAX_SAMPLES`: the largest sample count one transaction may carry, `n` for PACK and `count` for UNPACK. -/
  maxSamples : Option Nat
  /-- `MAX_BYTES`: the largest byte sequence one transaction may carry in or out. -/
  maxBytes : Option Nat
  /-- `COUNT_BITS`: the width of the count operand. -/
  countBits : Option Nat
  /-- `NUM_INSTANCES`: the number of independent BITS-CORE instances in the platform, at least 1. -/
  numInstances : Nat
  deriving DecidableEq, Repr

/-- The parameters of the one machine `State.reset` names: nothing is bounded and the platform holds one BITS-CORE
(DESIGN CHOICE, log entry 1: R7 leaves them OPEN). -/
def Params.unbounded : Params :=
  { maxSamples := none, maxBytes := none, countBits := none, numInstances := 1 }

end Sys2Proof
end

