-- ==== Sys2Proof/Word.lean ====
section
/-! DEFINITION. The fixed word widths of BITS-CORE (00_scope.md R7) and the plain-data sequences they form. -/

namespace Sys2Proof

/-- A 16-bit command word CMD (`CMD_WIDTH` = 16, R7, R47). -/
abbrev Cmd := BitVec 16

/-- One 64-bit sample word of the S and OUTS channels (`LANE_WIDTH` = 64, R7, R31). -/
abbrev Sample := BitVec 64

/-- One byte of a packed buffer, on the B and OUTB channels (R29). -/
abbrev Byte := BitVec 8

/-- The response's STATUS field (`STATUS_WIDTH` = 4, R7, R23). -/
abbrev StatusCode := BitVec 4

/-- The response's WTAG field (`WTAG_WIDTH` = 2, R7, R23). -/
abbrev WidthTag := BitVec 2

end Sys2Proof
end

