-- ==== Sys2Proof/Syntax.lean ====
section
/-! DEFINITION. The command set as syntax: the four instructions of 30_encoding.md R51 with their fields, the ways a
command word can be illegal (R52), and the assembler lines of R57 and R58. -/

namespace Sys2Proof

/-- A bit order (R13, R59): the source's "little" and "big". -/
inductive BitOrder where
  | lsbFirst
  | msbFirst
  deriving DecidableEq, Repr

/-- The instructions of the opcode table (R51).  `d` is the DEPTH field itself, a natural number from 0 to 127 (R48);
`so` is the sample bit order SORD and `bo` the byte bit order BORD (R59). -/
inductive Instr where
  | pack (d : Nat) (so bo : BitOrder)
  | packChk (d : Nat) (so bo : BitOrder)
  | unpack (d : Nat) (so bo : BitOrder)
  | nwidth (d : Nat)
  deriving DecidableEq, Repr

/-- The four disjuncts of `Illegal(CMD)` (R52), in its order: why the decoder turns a command word away. -/
inductive IllegalWord where
  /-- RSV, CMD[15:12], is not 0. -/
  | reservedBitsSet
  /-- OP = 3. -/
  | reservedOp
  /-- OP = 1 (UNPACK) with STRICT set. -/
  | strictInUnpack
  /-- OP = 2 (NWIDTH) with STRICT, BORD or SORD set. -/
  | orderOrStrictInNwidth
  deriving DecidableEq, Repr

/-- The mnemonics that take both bit orders (R57). -/
inductive OrderedMnemonic where
  | pack
  | packChk
  | unpack
  deriving DecidableEq, Repr

/-- One command in assembler form (R57), with the pseudo-instructions of R58. -/
inductive AsmLine where
  /-- `MNEMONIC d, so, bo` -/
  | ordered (m : OrderedMnemonic) (d : Nat) (so bo : BitOrder)
  /-- `NWIDTH d` -/
  | nwidth (d : Nat)
  /-- `MNEMONIC.L d` (`lsbFirst`) or `MNEMONIC.B d` (`msbFirst`): the source's single-order call (R58, R60) -/
  | paired (m : OrderedMnemonic) (order : BitOrder) (d : Nat)
  /-- `.word 0xNNNN` -/
  | word (w : Cmd)
  deriving DecidableEq, Repr

/-- One operand clause after the semicolon of an assembler line (R57). -/
inductive AsmOperand where
  /-- `S = [...]` -/
  | samples (l : List Sample)
  /-- `B = [...]` -/
  | bytes (l : List Byte)
  /-- `count = n` -/
  | count (n : Nat)
  deriving DecidableEq, Repr

end Sys2Proof
end

