-- ==== Sys2Proof/Machine/State.lean ====
section
/-! DEFINITION. The state of a platform of BITS-CORE instances as plain data (10_state.md), the interface records a
transaction carries, what a step can stop on, and the state after reset. -/

namespace Sys2Proof.Machine

/-- A transaction `t`: its command word and its three operands, captured whole when it is accepted (R21, R22, R37). -/
structure Transaction where
  /-- CMD, the command word (R21). -/
  cmd : Cmd
  /-- S, the samples to pack; `n` is its length (R22). -/
  samples : List Sample
  /-- B, the packed buffer to unpack; `m` is its length (R22). -/
  bytes : List Byte
  /-- count, the number of samples to unpack (R22). -/
  count : Nat
  deriving DecidableEq, Repr

/-- The transaction phase, the one state variable of an instance of BITS-CORE (R25). -/
inductive Phase where
  /-- IDLE: no transaction is held. -/
  | idle
  /-- BUSY(t): the accepted transaction `t` is in progress. -/
  | busy (t : Transaction)
  deriving DecidableEq, Repr

/-- The response record RSP (R23). -/
structure Response where
  /-- STATUS, the outcome code (R100). -/
  status : StatusCode
  /-- WTAG, the native width code (R95). -/
  wtag : WidthTag
  /-- OUTB, the packed buffer. -/
  outb : List Byte
  /-- OUTS, the decoded samples. -/
  outs : List Sample
  deriving DecidableEq, Repr

/-- The error causes of R100. -/
inductive ErrorKind where
  | illegalCommand
  | domainError
  | rangeError
  | lengthError
  deriving DecidableEq, Repr

/-- The native widths: "one of 8, 16, 32, 64" (R14, R94). -/
inductive NativeWidth where
  | w8
  | w16
  | w32
  | w64
  deriving DecidableEq, Repr

/-- One BITS-CORE and its side of the channels (R25, R117).  The name is short for the spec's "BITS-CORE instance". -/
structure Inst where
  /-- PHASE (R25). -/
  phase : Phase
  /-- Reset is being applied to this instance and has not been released (R121, R123; log entry 4). -/
  resetApplied : Bool
  /-- The responses the block has emitted on its response channel, oldest first: emission is delivery to the host
  (R26, R42; log entry 5). -/
  responses : List Response
  deriving DecidableEq, Repr

/-- What can happen next: the three steps of R26 (accepting an offer, completing, reset), with reset's release (R123).
`k` is the instance concerned (R20: which instance a transaction is sent to).  The list of events in State is the
environment's schedule: which offer, which completion and which reset comes next is the host's and time's to say, and a
statement about every state is a statement about every schedule (log entry 2). -/
inductive Event where
  /-- The host offers transaction `t` to instance `k`. -/
  | offer (k : Nat) (t : Transaction)
  /-- The time instance `k` takes is over: it completes if it is busy. -/
  | complete (k : Nat)
  /-- Reset is applied to instance `k`. -/
  | applyReset (k : Nat)
  /-- Reset is released on instance `k`. -/
  | releaseReset (k : Nat)
  deriving DecidableEq, Repr

/-- The whole machine. -/
structure State where
  /-- The OPEN parameters (R7); configuration, changed by no step (R20, R27). -/
  params : Params
  /-- The `NUM_INSTANCES` instances (R20, R117). -/
  instances : List Inst
  /-- The model's own: the number of the instance the present step works on (log entry 3). -/
  cur : Nat
  /-- The model's own: the events still to come, soonest first (log entry 2). -/
  inputs : List Event
  deriving DecidableEq, Repr

/-- Why the machine can stop with a fault.  The errors of the spec are none of these: they are responses (R99). -/
inductive Fault where
  /-- Raised by every meaning when it is asked to complete on an instance that holds no transaction: Complete's guard
  "PHASE = BUSY(t)" (R26) is false, so there are no operands.  No step of the machine raises it.  Safe. -/
  | noTransaction
  deriving DecidableEq, Repr

/-- Why the model can give no meaning. -/
inductive Refusal where
  /-- An instruction the model gives no meaning, by its mnemonic.  Raised by no arm of this model.  Safe. -/
  | notModelled (mnemonic : String)
  /-- Raised when a transaction over the capacity parameters would be accepted: "the model refuses it" (R8).  Safe. -/
  | overCapacity
  /-- Raised for an event sent to an instance the platform does not hold (R7: `NUM_INSTANCES`; log entry 6).  Safe. -/
  | noSuchInstance
  deriving DecidableEq, Repr

/-- An instance right after its reset is released: PHASE = IDLE, no transaction held, no response pending (R27). -/
def Inst.reset : Inst :=
  { phase := .idle, resetApplied := false, responses := [] }

/-- The platform with parameters `p` after reset: each of the `NUM_INSTANCES` instances starts at reset (R117, R120),
and nothing has been offered. -/
def State.resetOf (p : Params) : State :=
  { params := p, instances := List.replicate p.numInstances Inst.reset, cur := 0, inputs := [] }

/-- The machine right after reset (R27), with the parameters log entry 1 names. -/
def State.reset : State :=
  State.resetOf Params.unbounded

end Sys2Proof.Machine
end

