-- ==== Sys2Proof/Machine/Operands.lean ====
section
/-! DEFINITION. Operands and transaction-local values (10_state.md R22, R24) and the bit primitives of 00_scope.md R9,
R11 and R12.  Every operand is a whole sequence or number captured at Accept (R37); there are no addressing modes. -/

namespace Sys2Proof.Machine

/-- `ceil8(x) = (x + 7) div 8`, exact over the naturals (R8, R11). -/
def ceil8 (x : Nat) : Nat := (x + 7) / 8

/-- `v[j] <- b`: bit `j` becomes `b` and every other bit is left (R9). -/
def setBit {w : Nat} (v : BitVec w) (j : Nat) (b : Bool) : BitVec w :=
  if b then v ||| BitVec.twoPow w j else v &&& ~~~(BitVec.twoPow w j)

/-- `MemRead(i, 1)`: element `i` of the input byte sequence (R12).  It is read only at `i < len(B)`, which UNPACK's
LengthError check secures (R84); the 0 past the end is never reached (log entry 7). -/
def memRead (b : List Byte) (i : Nat) : Byte := b.getD i 0#8

/-- "`d` outside [1, 64], that is `d = 0` or `65 ≤ d ≤ 127`" (R102). -/
def depthInvalid (d : Nat) : Bool := decide (d < 1) || decide (64 < d)

/-- `R = ceil8(count*d)`, the length UNPACK requires (R24, R84). -/
def requiredLength (count d : Nat) : Nat := ceil8 (count * d)

/-- Every sample is below `2^d` (R78, R103). -/
def allInRange (d : Nat) (s : List Sample) : Bool := s.all (fun v => decide (v.toNat < 2 ^ d))

end Sys2Proof.Machine
end

