-- ==== Sys2Proof/Machine/BitOrder.lean ====
section
/-! DEFINITION. The bit-order steering mux (40_bit_order.md): the two selection functions, the bit stream, its placement
into bytes and the inverse. -/

namespace Sys2Proof.Machine

/-- `SampleBitIndex(so, d, j)` (R61). -/
def sampleBitIndex (so : BitOrder) (d j : Nat) : Nat :=
  match so with
  | .lsbFirst => j
  | .msbFirst => d - 1 - j

/-- `ByteBitPos(bo, r)` (R62). -/
def byteBitPos (bo : BitOrder) (r : Nat) : Nat :=
  match bo with
  | .lsbFirst => r
  | .msbFirst => 7 - r

/-- One sample's segment of the stream: exactly `d` bits, in SORD's order (R61, R63). -/
def sampleSegment (d : Nat) (so : BitOrder) (v : Sample) : List Bool :=
  (List.range d).map (fun j => v.getLsbD (sampleBitIndex so d j))

/-- `Stream(S, d, so)`: the segments in array order, with no gap (R63). -/
def stream (s : List Sample) (d : Nat) (so : BitOrder) : List Bool :=
  s.flatMap (sampleSegment d so)

/-- One turn of Place's inner loop (R64): stream bit `8q + r`, if there is one, goes to bit `ByteBitPos(bo, r)`; where the
stream has ended the bit stays 0 (pad). -/
def placeBit (t : List Bool) (bo : BitOrder) (q : Nat) (byte : Byte) (r : Nat) : Byte :=
  match t[8 * q + r]? with
  | some b => setBit byte (byteBitPos bo r) b
  | none => byte

/-- Byte `q` of `Place(T, bo)` (R64). -/
def placeByte (t : List Bool) (bo : BitOrder) (q : Nat) : Byte :=
  (List.range 8).foldl (placeBit t bo q) 0#8

/-- `Place(T, bo)` (R64). -/
def place (t : List Bool) (bo : BitOrder) : List Byte :=
  (List.range (ceil8 t.length)).map (placeByte t bo)

/-- `Gather(B, bo, k)`, for `k < 8*len(B)` (R65). -/
def gather (b : List Byte) (bo : BitOrder) (k : Nat) : Bool :=
  (memRead b (k / 8)).getLsbD (byteBitPos bo (k % 8))

end Sys2Proof.Machine
end

