-- ==== Sys2Proof/Machine/Flags.lean ====
section
/-! DEFINITION. Status computations.  BITS-CORE has no flags or condition codes (10_state.md R18): an outcome stands only
in the STATUS and WTAG fields of its own response, which this file forms (R56, R95, R100, R107). -/

namespace Sys2Proof.Machine

/-- STATUS of a success (R100). -/
def okCode : StatusCode := 0#4

/-- STATUS of each error (R100). -/
def ErrorKind.code : ErrorKind → StatusCode
  | .illegalCommand => 1#4
  | .domainError => 2#4
  | .rangeError => 3#4
  | .lengthError => 4#4

/-- A native width in bits. -/
def NativeWidth.bits : NativeWidth → Nat
  | .w8 => 8
  | .w16 => 16
  | .w32 => 32
  | .w64 => 64

/-- WTAG of a native width: `log2(NW(d) / 8)`, by the table of R95. -/
def NativeWidth.tag : NativeWidth → WidthTag
  | .w8 => 0#2
  | .w16 => 1#2
  | .w32 => 2#2
  | .w64 => 3#2

/-- `respond OK(...)`: the success response (R23). -/
def Response.ok (w : NativeWidth) (outb : List Byte) (outs : List Sample) : Response :=
  { status := okCode, wtag := w.tag, outb := outb, outs := outs }

/-- The error response of R107: STATUS = code(E), WTAG = 0, OUTB and OUTS empty. -/
def Response.error (e : ErrorKind) : Response :=
  { status := e.code, wtag := 0#2, outb := [], outs := [] }

/-- The response a computation ends with: what it responds, or the error it raises.  "Output written before a `raise` is
discarded" (R12). -/
def Response.ofResult : Except ErrorKind Response → Response
  | .ok r => r
  | .error e => Response.error e

end Sys2Proof.Machine
end

