-- ==== Sys2Proof/Machine/Ops.lean ====
section
/-! DEFINITION. The named operations on State: choosing an instance, the three steps of PHASE (10_state.md R26), and the
one way a transaction ends, with a success response or with the error it raises (60_exceptions.md R99, R107). -/

namespace Sys2Proof.Machine

/-- The instance a number names, where the platform holds it. -/
def State.inst (s : State) (k : Nat) : Option Inst := s.instances[k]?

/-- Turn to instance `k`. -/
def State.select (s : State) (k : Nat) : State := { s with cur := k }

/-- The events left after the soonest is taken. -/
def State.withInputs (s : State) (es : List Event) : State := { s with inputs := es }

/-- The transaction a phase holds. -/
def Phase.held : Phase → Option Transaction
  | .idle => none
  | .busy t => some t

/-- The transaction the present instance holds: the `t` of its BUSY(t) (R25). -/
def State.held (s : State) : Option Transaction :=
  (s.inst s.cur).bind (fun c => c.phase.held)

/-- Accept (R26): PHASE <- BUSY(t). -/
def Inst.accept (c : Inst) (t : Transaction) : Inst := { c with phase := .busy t }

/-- Complete (R26): the response is emitted and PHASE <- IDLE. -/
def Inst.complete (c : Inst) (r : Response) : Inst :=
  { c with phase := .idle, responses := c.responses ++ [r] }

/-- Reset is applied (R26, R120, R121): PHASE <- IDLE and no response for a transaction in progress. -/
def Inst.applyReset (c : Inst) : Inst := { c with phase := .idle, resetApplied := true }

/-- Reset is released (R123). -/
def Inst.releaseReset (c : Inst) : Inst := { c with resetApplied := false }

/-- Change the present instance, and no other (R117). -/
def State.modifyCur (s : State) (f : Inst → Inst) : State :=
  { s with instances := s.instances.modify s.cur f }

/-- End the present instance's transaction with a response (R26). -/
def State.emit (s : State) (r : Response) : State := s.modifyCur (fun c => c.complete r)

/-- `raise E` (R12, R107): taking the spec's one kind of exception.  The transaction ends with the error response and the
instance is IDLE again; "no state is saved, no mode changes and no control is transferred" (R99), so there is nothing to
return from (R109). -/
def State.raise (s : State) (e : ErrorKind) : State := s.emit (Response.error e)

/-- End the transaction the present instance holds with what `compute` makes of it.  With no transaction held there is
nothing to complete (R26). -/
def State.finish (s : State) (compute : Transaction → Except ErrorKind Response) :
    Host.Outcome State Fault Refusal :=
  match s.held with
  | none => .fault .noTransaction
  | some t =>
    match compute t with
    | .ok r => .next (s.emit r)
    | .error e => .next (s.raise e)

/-- Put a command word on the present instance as the transaction in progress, with the operands it holds (or none), and
let its completion be the next event: how a program's command is placed so that the very next step runs it (log
entry 8). -/
def State.loadCmd (s : State) (w : Cmd) : State :=
  let t : Transaction :=
    match s.held with
    | some t => { t with cmd := w }
    | none => { cmd := w, samples := [], bytes := [], count := 0 }
  (s.modifyCur (fun c => { c with phase := .busy t, resetApplied := false })).withInputs
    (.complete s.cur :: s.inputs)

end Sys2Proof.Machine
end

