-- ==== Sys2Proof/Machine/WidthSelect.lean ====
section
/-! DEFINITION. The width selector (43_width_select.md): `NW` and NWIDTH. -/

namespace Sys2Proof.Machine

/-- `NW(d)` for `d` in [1, 64], as R97 computes it.  Every command raises DomainError before it would need `NW` outside
that range (R94). -/
def nativeWidth (d : Nat) : NativeWidth :=
  if d ≤ 8 then .w8 else if d ≤ 16 then .w16 else if d ≤ 32 then .w32 else .w64

/-- NWIDTH's computation (R97). -/
def nwidthResult (d : Nat) : Except ErrorKind Response :=
  if depthInvalid d then .error .domainError
  else .ok (Response.ok (nativeWidth d) [] [])

/-- NWIDTH (R97). -/
def execNwidth (d : Nat) (s : State) : Host.Outcome State Fault Refusal :=
  s.finish (fun _ => nwidthResult d)

end Sys2Proof.Machine
end

