-- ==== Sys2Proof/Machine/Pack.lean ====
section
/-! DEFINITION. The packer (41_pack.md): PACK and PACK.CHK. -/

namespace Sys2Proof.Machine

/-- `PackBytes(S, d, so, bo) = Place(Stream(S, d, so), bo)` (R73). -/
def packBytes (s : List Sample) (d : Nat) (so bo : BitOrder) : List Byte :=
  place (stream s d so) bo

/-- PACK's computation (R77). -/
def packResult (d : Nat) (so bo : BitOrder) (s : List Sample) : Except ErrorKind Response :=
  if depthInvalid d then .error .domainError
  else .ok (Response.ok (nativeWidth d) (packBytes s d so bo) [])

/-- PACK.CHK's computation (R78): DomainError first, then RangeError, before any output is formed. -/
def packChkResult (d : Nat) (so bo : BitOrder) (s : List Sample) : Except ErrorKind Response :=
  if depthInvalid d then .error .domainError
  else if !allInRange d s then .error .rangeError
  else .ok (Response.ok (nativeWidth d) (packBytes s d so bo) [])

/-- PACK (R77). -/
def execPack (d : Nat) (so bo : BitOrder) (s : State) : Host.Outcome State Fault Refusal :=
  s.finish (fun t => packResult d so bo t.samples)

/-- PACK.CHK (R78). -/
def execPackChk (d : Nat) (so bo : BitOrder) (s : State) : Host.Outcome State Fault Refusal :=
  s.finish (fun t => packChkResult d so bo t.samples)

end Sys2Proof.Machine
end

