-- ==== Sys2Proof/Machine/Unpack.lean ====
section
/-! DEFINITION. The unpacker (42_unpack.md): UNPACK. -/

namespace Sys2Proof.Machine

/-- `zext_64(UnpackValue(B, d, so, bo, i))` (R85, R87): the stream's bit `i*d + j` is bit `SampleBitIndex(so, d, j)` of
the value, and every other bit of the 64-bit word is 0. -/
def unpackValue (b : List Byte) (d : Nat) (so bo : BitOrder) (i : Nat) : Sample :=
  (List.range d).foldl (fun v j => setBit v (sampleBitIndex so d j) (gather b bo (i * d + j))) 0#64

/-- The `count` words UNPACK writes (R88). -/
def unpackSamples (b : List Byte) (d : Nat) (so bo : BitOrder) (count : Nat) : List Sample :=
  (List.range count).map (unpackValue b d so bo)

/-- UNPACK's computation (R88): DomainError first, then LengthError. -/
def unpackResult (d : Nat) (so bo : BitOrder) (b : List Byte) (count : Nat) : Except ErrorKind Response :=
  if depthInvalid d then .error .domainError
  else if b.length < requiredLength count d then .error .lengthError
  else .ok (Response.ok (nativeWidth d) [] (unpackSamples b d so bo count))

/-- UNPACK (R88). -/
def execUnpack (d : Nat) (so bo : BitOrder) (s : State) : Host.Outcome State Fault Refusal :=
  s.finish (fun t => unpackResult d so bo t.bytes t.count)

end Sys2Proof.Machine
end

