-- ==== Sys2Proof/Machine/Dispatch.lean ====
section
/-! DEFINITION. One arm per instruction of the opcode table (30_encoding.md R51, R55). -/

namespace Sys2Proof.Machine

def exec (i : Instr) (s : State) : Host.Outcome State Fault Refusal :=
  match i with
  | .pack d so bo => Sys2Proof.Machine.execPack d so bo s
  | .packChk d so bo => Sys2Proof.Machine.execPackChk d so bo s
  | .unpack d so bo => Sys2Proof.Machine.execUnpack d so bo s
  | .nwidth d => Sys2Proof.Machine.execNwidth d s

end Sys2Proof.Machine
end

