-- ==== Sys2Proof/WellFormed.lean ====
section
/-! DEFINITION. Which instructions a command word can carry: the DEPTH field has 7 bits (30_encoding.md R48, R49). -/

namespace Sys2Proof

/-- The instruction's DEPTH operand. -/
def Instr.depth : Instr → Nat
  | .pack d _ _ => d
  | .packChk d _ _ => d
  | .unpack d _ _ => d
  | .nwidth d => d

/-- DEPTH is a 7-bit field: "depth `d < 128`" (R49).  Depths 0 and 65..127 are well formed; they execute to
DomainError (R51, R102). -/
def Instr.wf (i : Instr) : Bool :=
  decide (i.depth < 128)

/-- The depth an assembler line names, where it names one. -/
def AsmLine.depth? : AsmLine → Option Nat
  | .ordered _ d _ _ => some d
  | .nwidth d => some d
  | .paired _ _ d => some d
  | .word _ => none

/-- "`d` is a decimal number from 0 to 127" (R57). -/
def AsmLine.wf (a : AsmLine) : Bool :=
  match a.depth? with
  | some d => decide (d ≤ 127)
  | none => true

end Sys2Proof
end

