-- ==== Sys2Proof/Decode.lean ====
section
/-! DEFINITION. Command words and instructions (30_encoding.md): field extraction (R48), `Illegal` (R52), the decoder,
the opcode table (R51), the encoder (R49), and the assembler forms (R57, R58). -/

namespace Sys2Proof

/-! ## Field extraction (R48) -/

/-- OP = CMD[1:0]. -/
def opField (c : Cmd) : Nat := (c.extractLsb' 0 2).toNat

/-- DEPTH = CMD[8:2], the bit depth itself. -/
def depthField (c : Cmd) : Nat := (c.extractLsb' 2 7).toNat

/-- SORD = CMD[9]. -/
def sordBit (c : Cmd) : Bool := c.getLsbD 9

/-- BORD = CMD[10]. -/
def bordBit (c : Cmd) : Bool := c.getLsbD 10

/-- STRICT = CMD[11]. -/
def strictBit (c : Cmd) : Bool := c.getLsbD 11

/-- RSV = CMD[15:12]. -/
def rsvField (c : Cmd) : Nat := (c.extractLsb' 12 4).toNat

/-- An order field's bit as an order: 0 = LSB_FIRST, 1 = MSB_FIRST (R13). -/
def BitOrder.ofBit : Bool → BitOrder
  | false => .lsbFirst
  | true => .msbFirst

/-- An order as its field bit (R13). -/
def BitOrder.bit : BitOrder → Bool
  | .lsbFirst => false
  | .msbFirst => true

/-! ## The decoder -/

/-- `Illegal(CMD)`, formula for formula as R52 writes it. -/
def illegal (c : Cmd) : Bool :=
  decide (rsvField c ≠ 0)
    || decide (opField c = 3)
    || (decide (opField c = 1) && strictBit c)
    || (decide (opField c = 2) && (strictBit c || bordBit c || sordBit c))

/-- The instruction a command word stands for, or the name of what makes it illegal (R50, R51, R52): total on all 65536
words.  A command is one 16-bit word on a channel, with no byte order and no length to find (R45, R54). -/
def decode (c : Cmd) : Except IllegalWord Instr :=
  if rsvField c ≠ 0 then .error .reservedBitsSet
  else
    let d := depthField c
    let so := BitOrder.ofBit (sordBit c)
    let bo := BitOrder.ofBit (bordBit c)
    match opField c with
    | 0 => if strictBit c then .ok (.packChk d so bo) else .ok (.pack d so bo)
    | 1 => if strictBit c then .error .strictInUnpack else .ok (.unpack d so bo)
    | 2 => if strictBit c || bordBit c || sordBit c then .error .orderOrStrictInNwidth else .ok (.nwidth d)
    | _ => .error .reservedOp

/-- The mask of the instruction's row in the opcode table (R51). -/
def Instr.mask : Instr → Cmd
  | .pack _ _ _ => 0xF803#16
  | .packChk _ _ _ => 0xF803#16
  | .unpack _ _ _ => 0xF803#16
  | .nwidth _ => 0xFE03#16

/-- The match value of the instruction's row in the opcode table (R51). -/
def Instr.pattern : Instr → Cmd
  | .pack _ _ _ => 0x0000#16
  | .packChk _ _ _ => 0x0800#16
  | .unpack _ _ _ => 0x0001#16
  | .nwidth _ => 0x0002#16

/-! ## The encoder -/

/-- The OP code of an instruction (R50). -/
def Instr.op : Instr → Nat
  | .pack _ _ _ => 0
  | .packChk _ _ _ => 0
  | .unpack _ _ _ => 1
  | .nwidth _ => 2

/-- The SORD bit an instruction's word carries; NWIDTH must carry 0 (R21). -/
def Instr.sord : Instr → Bool
  | .pack _ so _ => so.bit
  | .packChk _ so _ => so.bit
  | .unpack _ so _ => so.bit
  | .nwidth _ => false

/-- The BORD bit an instruction's word carries; NWIDTH must carry 0 (R21). -/
def Instr.bord : Instr → Bool
  | .pack _ _ bo => bo.bit
  | .packChk _ _ bo => bo.bit
  | .unpack _ _ bo => bo.bit
  | .nwidth _ => false

/-- The STRICT bit an instruction's word carries: 1 for PACK.CHK alone (R51). -/
def Instr.strict : Instr → Bool
  | .packChk _ _ _ => true
  | .pack _ _ _ => false
  | .unpack _ _ _ => false
  | .nwidth _ => false

/-- The command word of a well-formed instruction: `op + 4*d + 512*so + 1024*bo + 2048*strict` (R49). -/
def encode (i : Instr) : Cmd :=
  BitVec.ofNat 16
    (i.op + 4 * i.depth + 512 * i.sord.toNat + 1024 * i.bord.toNat + 2048 * i.strict.toNat)

/-- The instruction the decoder reads from a table word: bit 0 is the word's least significant bit, the bits above
`nbits` are 0, and every command is one 16-bit word (R54), so a longer row does not exist. -/
def decodeTableWord (nbits w : Nat) : Option Instr :=
  if nbits ≤ 16 then
    match decode (BitVec.ofNat 16 (w % 2 ^ nbits)) with
    | .ok i => some i
    | .error _ => none
  else none

/-! ## Assembler (R57, R58) -/

/-- The instruction of a mnemonic with its depth and orders. -/
def OrderedMnemonic.instr (m : OrderedMnemonic) (d : Nat) (so bo : BitOrder) : Instr :=
  match m with
  | .pack => .pack d so bo
  | .packChk => .packChk d so bo
  | .unpack => .unpack d so bo

/-- A pseudo-instruction's expansion: the same order on both axes (R58).  Every other line stands for itself. -/
def AsmLine.expand : AsmLine → AsmLine
  | .paired m order d => .ordered m d order order
  | .ordered m d so bo => .ordered m d so bo
  | .nwidth d => .nwidth d
  | .word w => .word w

/-- The command word of an assembler line. -/
def AsmLine.assemble : AsmLine → Cmd
  | .ordered m d so bo => encode (m.instr d so bo)
  | .nwidth d => encode (.nwidth d)
  | .paired m order d => encode (m.instr d order order)
  | .word w => w

/-- The assembler line of a command word; "An illegal word is written `.word 0xNNNN`" (R57). -/
def disassemble (c : Cmd) : AsmLine :=
  match decode c with
  | .ok (.pack d so bo) => .ordered .pack d so bo
  | .ok (.packChk d so bo) => .ordered .packChk d so bo
  | .ok (.unpack d so bo) => .ordered .unpack d so bo
  | .ok (.nwidth d) => .nwidth d
  | .error _ => .word c

/-- The character of a hexadecimal digit. -/
def hexDigit (n : Nat) : Char :=
  ['0', '1', '2', '3', '4', '5', '6', '7', '8', '9', 'A', 'B', 'C', 'D', 'E', 'F'].getD n '?'

/-- A depth as the decimal number R57 writes (at most three digits). -/
def depthText (d : Nat) : List Char :=
  if d < 10 then [hexDigit d]
  else if d < 100 then [hexDigit (d / 10), hexDigit (d % 10)]
  else [hexDigit (d / 100 % 10), hexDigit (d / 10 % 10), hexDigit (d % 10)]

/-- An order as R57 writes it. -/
def BitOrder.text : BitOrder → List Char
  | .lsbFirst => "LSB".toList
  | .msbFirst => "MSB".toList

/-- A mnemonic as the opcode table writes it. -/
def OrderedMnemonic.text : OrderedMnemonic → List Char
  | .pack => "PACK".toList
  | .packChk => "PACK.CHK".toList
  | .unpack => "UNPACK".toList

/-- The text of an assembler line (R57, R58). -/
def AsmLine.text : AsmLine → List Char
  | .ordered m d so bo => m.text ++ [' '] ++ depthText d ++ [',', ' '] ++ so.text ++ [',', ' '] ++ bo.text
  | .nwidth d => "NWIDTH ".toList ++ depthText d
  | .paired m .lsbFirst d => m.text ++ ".L ".toList ++ depthText d
  | .paired m .msbFirst d => m.text ++ ".B ".toList ++ depthText d
  | .word w =>
    ".word 0x".toList
      ++ [hexDigit (w.toNat / 4096), hexDigit (w.toNat / 256 % 16), hexDigit (w.toNat / 16 % 16),
        hexDigit (w.toNat % 16)]

end Sys2Proof
end

