-- ==== Sys2Proof/Machine/Exec.lean ====
section
/-! DEFINITION. `Exec(t)`, the response of a transaction as a function of it alone, by the pseudocode of 30_encoding.md
R55 on the raw fields of CMD.  The machine itself goes the other way, through `decode` and `exec`; that both agree is a
statement. -/

namespace Sys2Proof.Machine

/-- R55's dispatch: what a transaction computes or raises. -/
def execResult (t : Transaction) : Except ErrorKind Response :=
  let d := depthField t.cmd
  let so := BitOrder.ofBit (sordBit t.cmd)
  let bo := BitOrder.ofBit (bordBit t.cmd)
  if illegal t.cmd then .error .illegalCommand
  else if opField t.cmd = 0 ∧ strictBit t.cmd = false then packResult d so bo t.samples
  else if opField t.cmd = 0 ∧ strictBit t.cmd = true then packChkResult d so bo t.samples
  else if opField t.cmd = 1 then unpackResult d so bo t.bytes t.count
  else nwidthResult d

/-- `Exec(t)` (R26, R55). -/
def respond (t : Transaction) : Response := Response.ofResult (execResult t)

end Sys2Proof.Machine
end

