-- ==== Sys2Proof/Machine/Sequencer.lean ====
section
/-! DEFINITION. What each event does to its instance: Accept, Complete and Reset (10_state.md R26, 70_reset_and_hazards.md
R120, R121) and the capacity a transaction must keep to be accepted (00_scope.md R8). -/

namespace Sys2Proof.Machine

/-- A count or length keeps within a parameter that may be unbounded (R7). -/
def withinBound (bound : Option Nat) (x : Nat) : Bool :=
  match bound with
  | none => true
  | some b => decide (x ≤ b)

/-- "count is a natural number below `2^COUNT_BITS`" (R22). -/
def countFits (bits : Option Nat) (count : Nat) : Bool :=
  match bits with
  | none => true
  | some b => decide (count < 2 ^ b)

/-- The sample count a transaction carries: "`n` for PACK, `count` for UNPACK" (R7). -/
def sampleCount (t : Transaction) : Nat :=
  match decode t.cmd with
  | .ok (.pack _ _ _) => t.samples.length
  | .ok (.packChk _ _ _) => t.samples.length
  | .ok (.unpack _ _ _) => t.count
  | .ok (.nwidth _) => 0
  | .error _ => 0

/-- The transaction keeps within `MAX_SAMPLES`, `MAX_BYTES` ("in or out") and `COUNT_BITS` (R7, R8, R22; log entry 9). -/
def withinCapacity (p : Params) (t : Transaction) : Bool :=
  withinBound p.maxSamples (sampleCount t)
    && withinBound p.maxBytes t.bytes.length
    && withinBound p.maxBytes (respond t).outb.length
    && countFits p.countBits t.count

/-- Run the transaction the present instance holds: an illegal command word raises IllegalCommand (R101), every other is
the instruction it decodes to.  With no transaction held Complete's guard fails and nothing happens (R26, R119). -/
def completeCur (s : State) : Host.Outcome State Fault Refusal :=
  match s.held with
  | none => .next s
  | some t =>
    match decode t.cmd with
    | .error _ => .next (s.raise .illegalCommand)
    | .ok i => exec i s

/-- The host offers `t` to the present instance, whose record is `c`; `rest` are the events after the offer.  While reset
is applied the offer is not accepted (R121).  While the instance is BUSY the offer waits and the instance completes
(R25, R42).  Otherwise it is accepted (R26), unless it is over capacity (R8). -/
def offerCur (s : State) (c : Inst) (t : Transaction) (rest : List Event) :
    Host.Outcome State Fault Refusal :=
  if c.resetApplied then .next (s.withInputs rest)
  else
    match c.phase with
    | .busy _ => completeCur s
    | .idle =>
      if withinCapacity s.params t then .next ((s.withInputs rest).modifyCur (fun x => x.accept t))
      else .refused .overCapacity

/-- The instance an event concerns. -/
def Event.target : Event → Nat
  | .offer k _ => k
  | .complete k => k
  | .applyReset k => k
  | .releaseReset k => k

/-- One event, with the instance it concerns selected. -/
def eventCur (s : State) (c : Inst) (e : Event) (rest : List Event) : Host.Outcome State Fault Refusal :=
  match e with
  | .offer _ t => offerCur s c t rest
  | .complete _ => completeCur (s.withInputs rest)
  | .applyReset _ => .next ((s.withInputs rest).modifyCur Inst.applyReset)
  | .releaseReset _ => .next ((s.withInputs rest).modifyCur Inst.releaseReset)

/-- The event at the head of the schedule. -/
def handleEvent (s : State) (e : Event) (rest : List Event) : Host.Outcome State Fault Refusal :=
  match s.inst e.target with
  | none => .refused .noSuchInstance
  | some c => eventCur (s.select e.target) c e rest

/-- A phase that holds a transaction. -/
def Phase.isBusy : Phase → Bool
  | .idle => false
  | .busy _ => true

/-- The lowest-numbered BUSY instance. -/
def firstBusy (s : State) : Option Nat := s.instances.findIdx? (fun c => c.phase.isBusy)

/-- With no event pending, what is in progress completes, one instance a step (R129), the lowest-numbered first (log
entry 2); when every instance is IDLE nothing happens, "no event other than a new transaction or reset changes it"
(R119). -/
def quietStep (s : State) : Host.Outcome State Fault Refusal :=
  match firstBusy s with
  | none => .next s
  | some k => completeCur (s.select k)

end Sys2Proof.Machine
end

