-- ==== Sys2Proof/Machine/Step.lean ====
section
/-! DEFINITION. The one step of the machine, and where a command is placed for it. -/

namespace Sys2Proof.Machine

/-- One step: the soonest event of the schedule, or, when none is pending, a completion (R26). -/
def step (s : State) : Host.Outcome State Fault Refusal :=
  match s.inputs with
  | [] => quietStep s
  | e :: rest => handleEvent s e rest

/-- The state with a table word placed as the command the very next step runs (log entry 8). -/
def State.withFetchWord (s : State) (nbits w : Nat) : State :=
  s.loadCmd (BitVec.ofNat 16 (w % 2 ^ nbits))

end Sys2Proof.Machine
end

