-- ==== Sys2Proof/Machine/Assembler.lean ====
section
/-! DEFINITION. A transaction written in assembler form with its operands after a semicolon (30_encoding.md R57). -/

namespace Sys2Proof.Machine

/-- Set the operand a clause names. -/
def Transaction.withOperand (t : Transaction) : AsmOperand → Transaction
  | .samples l => { t with samples := l }
  | .bytes l => { t with bytes := l }
  | .count n => { t with count := n }

/-- The transaction of a line and its operand clauses (R57).  An operand no clause names is one the operation does not
read: it is empty, which has no effect on the response (R22). -/
def asmTransaction (line : AsmLine) (operands : List AsmOperand) : Transaction :=
  operands.foldl Transaction.withOperand
    { cmd := line.assemble, samples := [], bytes := [], count := 0 }

end Sys2Proof.Machine
end

