-- ==== Sys2Proof/Machine/HostLayout.lean ====
section
/-! DEFINITION. How a host that keeps a packed buffer in byte-addressed memory places it (20_memory.md R32).  The memory is
the host's own: BITS-CORE has no address space and never sees the addresses (R28). -/

namespace Sys2Proof.Machine

/-- "buffer byte `q` at address `base + q`" (R32), as address and byte pairs with rising addresses. -/
def hostPlace (base : Nat) : List Byte → List Host.Cell
  | [] => []
  | b :: bs => (base, b) :: hostPlace (base + 1) bs

/-- Read one byte of the host's memory. -/
def hostRead (m : List Host.Cell) (a : Nat) : Option Byte :=
  (m.find? (fun c => c.1 == a)).map (fun c => c.2)

/-- Read `len` bytes of the host's memory from `base` up, as the buffer B of a transaction. -/
def hostFetch (m : List Host.Cell) (base len : Nat) : Option (List Byte) :=
  (List.range len).mapM (fun q => hostRead m (base + q))

end Sys2Proof.Machine
end

