-- ==== Sys2Proof/Safety.lean ====
section
/-! DEFINITION. The terms claims about runs use: the invariant of the platform, quiet states, and the work that is left. -/

namespace Sys2Proof.Machine

/-- The native width a WTAG value stands for, in bits (R95). -/
def tagBits (w : WidthTag) : Nat := 8 * 2 ^ w.toNat

/-- A response the spec allows (R23, R38, R100, R107): the STATUS is one of 0 to 4; an error carries nothing; a success
carries at most one of the two outputs; and no output word exceeds the native width it is labelled with (R34). -/
structure Response.Legal (r : Response) : Prop where
  status_le : r.status.toNat ≤ 4
  error_empty : r.status ≠ 0#4 → r.wtag = 0#2 ∧ r.outb = [] ∧ r.outs = []
  one_output : r.outb = [] ∨ r.outs = []
  outs_fit : ∀ v ∈ r.outs, v.toNat < 2 ^ tagBits r.wtag

/-- What holds of one instance in a platform with parameters `p`. -/
structure Inst.Inv (p : Params) (c : Inst) : Prop where
  /-- While reset is applied no transaction is held (R26, R121). -/
  reset_idle : c.resetApplied = true → c.phase = .idle
  /-- A transaction in progress keeps within capacity (R8). -/
  held_fits : ∀ t, c.phase = .busy t → withinCapacity p t = true
  /-- Every response emitted is one the spec allows. -/
  responses_legal : ∀ r ∈ c.responses, r.Legal
  /-- No response carries more bytes or samples than one transaction may (R7). -/
  responses_fit : ∀ r ∈ c.responses,
    withinBound p.maxBytes r.outb.length = true ∧ withinBound p.maxSamples r.outs.length = true

/-- The invariant of the platform: it holds `NUM_INSTANCES ≥ 1` instances (R7, R117), the present one among them, each
in order. -/
structure State.Inv (s : State) : Prop where
  some_instance : 1 ≤ s.params.numInstances
  instances_length : s.instances.length = s.params.numInstances
  cur_lt : s.cur < s.instances.length
  each : ∀ c ∈ s.instances, c.Inv s.params

/-- Nothing is offered and nothing is in progress: the end state of every program (95_test_vectors.md section 3). -/
def State.Quiet (s : State) : Prop :=
  s.inputs = [] ∧ ∀ c ∈ s.instances, c.phase = .idle

/-- How many instances are BUSY. -/
def busyCount (s : State) : Nat := s.instances.countP (fun c => c.phase.isBusy)

/-- A bound on the steps until the machine is quiet: two for each event and one for each transaction in progress. -/
def work (s : State) : Nat := 2 * s.inputs.length + busyCount s

/-- An event the platform can take: it names an instance the platform holds, and a transaction offered keeps within
capacity. -/
def Event.Acceptable (s : State) (e : Event) : Prop :=
  e.target < s.instances.length ∧ ∀ k t, e = .offer k t → withinCapacity s.params t = true

/-- A run that stops safely or goes on: the only stops are the refusals that R7 and R8 call for. -/
def SafeOutcome : Host.Outcome State Fault Refusal → Prop
  | .next _ => True
  | .fault _ => False
  | .refused r => r = .overCapacity ∨ r = .noSuchInstance

end Sys2Proof.Machine
end

