-- ==== Sys2Proof/Certificates/Slice0/Obligations.lean ====
section
/-! DEFINITION. The statements about the model, from the numbered rules of the spec.  Nothing is proved here. -/

open Sys2Proof Sys2Proof.Machine

namespace Sys2Proof.Stated

/-- The WTAG of a depth by the table of R95, written out. -/
def tagOf (d : Nat) : WidthTag :=
  if d ≤ 8 then 0#2 else if d ≤ 16 then 1#2 else if d ≤ 32 then 2#2 else 3#2

/-- The error response of R107 with STATUS `code`, written out. -/
def errorRsp (code : StatusCode) : Response := { status := code, wtag := 0#2, outb := [], outs := [] }

/-- The order a field bit names (R13). -/
def fieldOrder (b : Nat) : BitOrder := if b = 1 then .msbFirst else .lsbFirst

/-- The state in which instance `k` holds `c` and every other instance what it held, with `k` the present one and the
events `es` left. -/
def withInst (s : State) (k : Nat) (c : Inst) (es : List Event) : State :=
  { params := s.params, instances := s.instances.set k c, cur := k, inputs := es }

/-- All 65536 command words. -/
def allWords : List Cmd := (List.range 65536).map (BitVec.ofNat 16)

/-- What kind of word a command word is: its opcode-table row, or none. -/
inductive Kind where
  | pack
  | packChk
  | unpack
  | nwidth
  | illegal
  deriving DecidableEq, Repr

/-- The kind the decoder gives a word. -/
def kindOf (c : Cmd) : Kind :=
  match decode c with
  | .ok (.pack _ _ _) => .pack
  | .ok (.packChk _ _ _) => .packChk
  | .ok (.unpack _ _ _) => .unpack
  | .ok (.nwidth _) => .nwidth
  | .error _ => .illegal

end Sys2Proof.Stated

open Sys2Proof.Stated

/-! ## Encoding (30_encoding.md) -/

/-- Decoding the word of a well-formed instruction gives the instruction back, with every operand at every value. -/
def Obligations.DecodeOfEncode : Prop :=
  ∀ i : Instr, i.wf = true → decode (encode i) = .ok i

/-- A word that decodes is the word of the instruction it decodes to, which is well formed: no two words share a
meaning. -/
def Obligations.EncodeOfDecode : Prop :=
  ∀ (c : Cmd) (i : Instr), decode c = .ok i → i.wf = true ∧ encode i = c

/-- R49: the value of every command word, RSV = 0, and the table of encodings the rule lists. -/
def Obligations.EncodedWordValues : Prop :=
  (∀ d so bo, d < 128 →
    (encode (.pack d so bo)).toNat = 0 + 4 * d + 512 * so.bit.toNat + 1024 * bo.bit.toNat + 2048 * 0 ∧
    (encode (.packChk d so bo)).toNat = 0 + 4 * d + 512 * so.bit.toNat + 1024 * bo.bit.toNat + 2048 * 1 ∧
    (encode (.unpack d so bo)).toNat = 1 + 4 * d + 512 * so.bit.toNat + 1024 * bo.bit.toNat + 2048 * 0 ∧
    (encode (.nwidth d)).toNat = 2 + 4 * d) ∧
  (∀ i : Instr, i.wf = true → rsvField (encode i) = 0) ∧
  encode (.pack 12 .lsbFirst .lsbFirst) = 0x0030#16 ∧
  encode (.pack 12 .msbFirst .msbFirst) = 0x0630#16 ∧
  encode (.pack 12 .lsbFirst .msbFirst) = 0x0430#16 ∧
  encode (.pack 12 .msbFirst .lsbFirst) = 0x0230#16 ∧
  encode (.packChk 12 .lsbFirst .lsbFirst) = 0x0830#16 ∧
  encode (.unpack 12 .lsbFirst .lsbFirst) = 0x0031#16 ∧
  encode (.unpack 12 .msbFirst .msbFirst) = 0x0631#16 ∧
  encode (.nwidth 12) = 0x0032#16 ∧
  encode (.pack 1 .lsbFirst .lsbFirst) = 0x0004#16 ∧
  encode (.pack 64 .lsbFirst .lsbFirst) = 0x0100#16 ∧
  encode (.pack 0 .lsbFirst .lsbFirst) = 0x0000#16 ∧
  encode (.pack 65 .lsbFirst .lsbFirst) = 0x0104#16 ∧
  encode (.nwidth 127) = 0x01FE#16

/-- The four rows of the opcode table by mask and match, with the fields each gives, and every other word illegal. -/
def Obligations.OpcodeTableSelectsByMaskAndMatch : Prop :=
  ∀ c : Cmd,
    let d := c.toNat / 4 % 128
    let so := fieldOrder (c.toNat / 512 % 2)
    let bo := fieldOrder (c.toNat / 1024 % 2)
    (c &&& 0xF803#16 = 0x0000#16 ↔ decode c = .ok (.pack d so bo)) ∧
    (c &&& 0xF803#16 = 0x0800#16 ↔ decode c = .ok (.packChk d so bo)) ∧
    (c &&& 0xF803#16 = 0x0001#16 ↔ decode c = .ok (.unpack d so bo)) ∧
    (c &&& 0xFE03#16 = 0x0002#16 ↔ decode c = .ok (.nwidth d)) ∧
    ((c &&& 0xF803#16 ≠ 0x0000#16 ∧ c &&& 0xF803#16 ≠ 0x0800#16 ∧ c &&& 0xF803#16 ≠ 0x0001#16 ∧
        c &&& 0xFE03#16 ≠ 0x0002#16) ↔ ∃ e, decode c = .error e)

/-- R52: a word is illegal exactly when the rule's formula holds, so every other word, at all 128 depths, is one of the four
instructions.  A BUSY instance that holds an illegal word completes with STATUS = IllegalCommand and no output; one that
holds a legal word with a depth out of range completes with DomainError. -/
def Obligations.IllegalWordsExactly : Prop :=
  ∀ c : Cmd,
    ((∃ e, decode c = .error e) ↔
      (c.toNat / 4096 ≠ 0 ∨ c.toNat % 4 = 3 ∨ (c.toNat % 4 = 1 ∧ c.toNat / 2048 % 2 = 1) ∨
        (c.toNat % 4 = 2 ∧ c.toNat / 512 % 8 ≠ 0))) ∧
    ∀ (s : State) (k : Nat) (x : Inst) (t : Transaction) (es : List Event),
      s.inputs = .complete k :: es → s.instances[k]? = some x → x.phase = .busy t → t.cmd = c →
      ((∃ e, decode c = .error e) →
        step s = .next (withInst s k { x with phase := .idle, responses := x.responses ++ [errorRsp 1#4] } es)) ∧
      (∀ i, decode c = .ok i → i.depth = 0 ∨ 65 ≤ i.depth →
        step s = .next (withInst s k { x with phase := .idle, responses := x.responses ++ [errorRsp 2#4] } es))

/-- R53: how many of the 65536 words each instruction has, and how many are illegal. -/
def Obligations.LegalWordCounts : Prop :=
  allWords.countP (fun c => kindOf c == .pack) = 512 ∧
  allWords.countP (fun c => kindOf c == .packChk) = 512 ∧
  allWords.countP (fun c => kindOf c == .unpack) = 512 ∧
  allWords.countP (fun c => kindOf c == .nwidth) = 128 ∧
  allWords.countP (fun c => kindOf c != .illegal) = 1664 ∧
  allWords.countP (fun c => kindOf c == .illegal) = 63872

/-- Words written out from R47's pattern `RRRRTbsdddddddoo` (vectors EN-1 to EN-15 of 95_test_vectors.md). -/
def Obligations.SpecWordsDecode : Prop :=
  decode 0b0000000000110000#16 = .ok (.pack 12 .lsbFirst .lsbFirst) ∧
  decode 0b0000111000110000#16 = .ok (.packChk 12 .msbFirst .msbFirst) ∧
  decode 0b0000011000110001#16 = .ok (.unpack 12 .msbFirst .msbFirst) ∧
  decode 0b0000000000110010#16 = .ok (.nwidth 12) ∧
  decode 0b0000000111111100#16 = .ok (.pack 127 .lsbFirst .lsbFirst) ∧
  decode 0b0000000000000011#16 = .error .reservedOp ∧
  decode 0b0001000000110000#16 = .error .reservedBitsSet ∧
  decode 0b0000100000110001#16 = .error .strictInUnpack ∧
  decode 0b0000001000110010#16 = .error .orderOrStrictInNwidth ∧
  decode 0b0000010000110010#16 = .error .orderOrStrictInNwidth ∧
  decode 0b0000100000110010#16 = .error .orderOrStrictInNwidth

/-- R57: every word has an assembler line that assembles back to it, written `.word` exactly when it is illegal. -/
def Obligations.AssembleOfDisassemble : Prop :=
  ∀ c : Cmd, (disassemble c).assemble = c ∧ (disassemble c).wf = true ∧
    (disassemble c = .word c ↔ ∃ e, decode c = .error e)

/-- R58: each pseudo-instruction expands to one command with the same order on both axes, and assembles to that command's
word. -/
def Obligations.PseudoInstructionsExpand : Prop :=
  ∀ d : Nat, d < 128 →
    (∀ m o, (AsmLine.paired m o d).expand = .ordered m d o o ∧
      (AsmLine.paired m o d).assemble = (AsmLine.ordered m d o o).assemble) ∧
    decode (AsmLine.paired .pack .lsbFirst d).assemble = .ok (.pack d .lsbFirst .lsbFirst) ∧
    decode (AsmLine.paired .pack .msbFirst d).assemble = .ok (.pack d .msbFirst .msbFirst) ∧
    decode (AsmLine.paired .packChk .lsbFirst d).assemble = .ok (.packChk d .lsbFirst .lsbFirst) ∧
    decode (AsmLine.paired .packChk .msbFirst d).assemble = .ok (.packChk d .msbFirst .msbFirst) ∧
    decode (AsmLine.paired .unpack .lsbFirst d).assemble = .ok (.unpack d .lsbFirst .lsbFirst) ∧
    decode (AsmLine.paired .unpack .msbFirst d).assemble = .ok (.unpack d .msbFirst .msbFirst)

/-! ## The bit-order steering mux (40_bit_order.md) -/

/-- R61, R63: the stream has `n*d` bits, and the bit at `i*d + j` is the bit of sample `i` that SORD selects. -/
def Obligations.StreamBits : Prop :=
  ∀ (S : List Sample) (d : Nat) (so : BitOrder),
    (stream S d so).length = S.length * d ∧
    ∀ i j, (hi : i < S.length) → j < d →
      (stream S d so)[i * d + j]? =
        some (S[i].getLsbD (if so = .lsbFirst then j else d - 1 - j))

/-- R62, R64: placement gives exactly `ceil8(N)` bytes; stream bit `8q + r` stands in byte `q` at the bit BORD selects;
every bit past the stream is 0. -/
def Obligations.PlacedBits : Prop :=
  ∀ (T : List Bool) (bo : BitOrder),
    (place T bo).length = (T.length + 7) / 8 ∧
    ∀ q r, (hq : q < (place T bo).length) → r < 8 →
      (place T bo)[q].getLsbD (if bo = .lsbFirst then r else 7 - r) =
        (if h : 8 * q + r < T.length then T[8 * q + r] else false)

/-- R66: both selection functions stay in range and undo themselves, so gathering what was placed gives the stream
back. -/
def Obligations.GatherOfPlace : Prop :=
  (∀ bo r, r < 8 → byteBitPos bo r < 8 ∧ byteBitPos bo (byteBitPos bo r) = r) ∧
  (∀ so d j, j < d → sampleBitIndex so d j < d ∧ sampleBitIndex so d (sampleBitIndex so d j) = j) ∧
  (∀ (T : List Bool) (bo : BitOrder) (k : Nat), (hk : k < T.length) → gather (place T bo) bo k = T[k])

/-- R67: the paired-LSB buffer read as a little-endian integer. -/
def Obligations.PairedLsbClosedForm : Prop :=
  ∀ (S : List Sample) (d : Nat),
    let P := packBytes S d .lsbFirst .lsbFirst
    ∑ q ∈ Finset.range P.length, (P.getD q 0#8).toNat * 2 ^ (8 * q) =
      ∑ i ∈ Finset.range S.length, ((S.getD i 0#64).toNat % 2 ^ d) * 2 ^ (i * d)

/-- R68: the paired-MSB buffer read as a big-endian integer, the pad bits at its low end. -/
def Obligations.PairedMsbClosedForm : Prop :=
  ∀ (S : List Sample) (d : Nat),
    let P := packBytes S d .msbFirst .msbFirst
    ∑ q ∈ Finset.range P.length, (P.getD q 0#8).toNat * 2 ^ (8 * (P.length - 1 - q)) =
      (∑ i ∈ Finset.range S.length, ((S.getD i 0#64).toNat % 2 ^ d) * 2 ^ ((S.length - 1 - i) * d)) *
        2 ^ (8 * P.length - S.length * d)

/-- R69: turning BORD over reverses the bits of every byte. -/
def Obligations.ByteAxisFlipReversesBytes : Prop :=
  ∀ (S : List Sample) (d : Nat) (so : BitOrder),
    packBytes S d so .msbFirst = (packBytes S d so .lsbFirst).map BitVec.reverse ∧
    packBytes S d so .lsbFirst = (packBytes S d so .msbFirst).map BitVec.reverse

/-- R70: turning SORD over packs the samples whose low `d` bits are reversed. -/
def Obligations.SampleAxisFlipReversesSamples : Prop :=
  ∀ (S S' : List Sample) (d : Nat) (bo : BitOrder), d ≤ 64 → S'.length = S.length →
    (∀ i j, i < S.length → j < 64 →
      (S'.getD i 0#64).getLsbD j = (decide (j < d) && (S.getD i 0#64).getLsbD (d - 1 - j))) →
    packBytes S d .msbFirst bo = packBytes S' d .lsbFirst bo

/-- R71: at a whole-byte depth each sample is its bytes, least-significant first under paired LSB and most-significant
first under paired MSB; at depth 8 the two agree. -/
def Obligations.WholeByteDepths : Prop :=
  (∀ (S : List Sample) (w : Nat), 1 ≤ w → w ≤ 8 →
    (packBytes S (8 * w) .lsbFirst .lsbFirst).length = S.length * w ∧
    (packBytes S (8 * w) .msbFirst .msbFirst).length = S.length * w ∧
    ∀ i b, (hi : i < S.length) → b < w →
      ((packBytes S (8 * w) .lsbFirst .lsbFirst).getD (i * w + b) 0#8).toNat = S[i].toNat / 2 ^ (8 * b) % 256 ∧
      ((packBytes S (8 * w) .msbFirst .msbFirst).getD (i * w + b) 0#8).toNat =
        S[i].toNat / 2 ^ (8 * (w - 1 - b)) % 256) ∧
  (∀ S : List Sample, packBytes S 8 .lsbFirst .lsbFirst = packBytes S 8 .msbFirst .msbFirst ∧
    packBytes S 8 .lsbFirst .lsbFirst = S.map (fun v => BitVec.ofNat 8 (v.toNat % 256)))

/-- R72: exactly when the two paired settings give the same buffer. -/
def Obligations.PairedOrdersAgreeExactlyWhen : Prop :=
  ∀ (S : List Sample) (d : Nat),
    packBytes S d .lsbFirst .lsbFirst = packBytes S d .msbFirst .msbFirst ↔
      ∀ k < 8 * ((S.length * d + 7) / 8),
        (stream S d .lsbFirst).getD k false = (stream S d .msbFirst).getD (8 * (k / 8) + 7 - k % 8) false

/-! ## The packer (41_pack.md) -/

/-- R74, R80: the length of a successful pack's output, how many pad bits its last byte holds, and that they are 0 at
the end of the byte that BORD puts last. -/
def Obligations.PackedLengthAndPadBits : Prop :=
  ∀ (S : List Sample) (d : Nat) (so bo : BitOrder) (r : Response),
    (packResult d so bo S = .ok r ∨ packChkResult d so bo S = .ok r) →
      r.outb.length = (S.length * d + 7) / 8 ∧
      (S.length * d % 8 = 0 → 8 * r.outb.length - S.length * d = 0) ∧
      (S.length * d % 8 ≠ 0 → 1 ≤ 8 * r.outb.length - S.length * d ∧ 8 * r.outb.length - S.length * d ≤ 7) ∧
      ∀ k, S.length * d ≤ k → k < 8 * r.outb.length →
        k / 8 = r.outb.length - 1 ∧
        (r.outb.getD (k / 8) 0#8).getLsbD (if bo = .lsbFirst then k % 8 else 7 - k % 8) = false

/-- R82: packing splits wherever the first part ends at a byte boundary. -/
def Obligations.PackSplitsAtByteBoundary : Prop :=
  ∀ (S1 S2 : List Sample) (d : Nat) (so bo : BitOrder), S1.length * d % 8 = 0 →
    packBytes (S1 ++ S2) d so bo = packBytes S1 d so bo ++ packBytes S2 d so bo

/-- R83: only the low `d` bits of a sample are packed, so PACK on any samples is PACK.CHK on the truncated ones. -/
def Obligations.PackTruncates : Prop :=
  ∀ (S S' : List Sample) (d : Nat) (so bo : BitOrder), S'.length = S.length →
    (∀ i < S.length, (S'.getD i 0#64).toNat = (S.getD i 0#64).toNat % 2 ^ d) →
    packBytes S d so bo = packBytes S' d so bo ∧ packResult d so bo S = packChkResult d so bo S'

/-! ## The unpacker (42_unpack.md) -/

/-- R85: the bits of a decoded sample: stream bit `i*d + j` at the index SORD selects, and nothing at `d` or above. -/
def Obligations.UnpackedValueBits : Prop :=
  ∀ (B : List Byte) (d : Nat) (so bo : BitOrder) (i : Nat), d ≤ 64 →
    (∀ j < d, i * d + j < 8 * B.length →
      (unpackValue B d so bo i).getLsbD (if so = .lsbFirst then j else d - 1 - j) =
        (B.getD ((i * d + j) / 8) 0#8).getLsbD
          (if bo = .lsbFirst then (i * d + j) % 8 else 7 - (i * d + j) % 8)) ∧
    (∀ j, d ≤ j → (unpackValue B d so bo i).getLsbD j = false) ∧
    (unpackValue B d so bo i).toNat < 2 ^ d

/-- R86: only the stream bits below `count*d` matter: pad bits and surplus bytes change nothing. -/
def Obligations.UnpackIgnoresPadAndSurplus : Prop :=
  (∀ (B B' : List Byte) (d count : Nat) (so bo : BitOrder),
    (count * d + 7) / 8 ≤ B.length → (count * d + 7) / 8 ≤ B'.length →
    (∀ k < count * d, gather B bo k = gather B' bo k) →
    unpackResult d so bo B count = unpackResult d so bo B' count) ∧
  (∀ (B X : List Byte) (d count : Nat) (so bo : BitOrder), (count * d + 7) / 8 ≤ B.length →
    unpackResult d so bo (B ++ X) count = unpackResult d so bo B count)

/-- R90, R91: UNPACK of a PACK's output with the same parameters gives the samples back, each modulo `2^d`; samples in
range come back as they were, after PACK.CHK too. -/
def Obligations.UnpackOfPackRestoresSamples : Prop :=
  ∀ (d : Nat) (so bo : BitOrder) (tp tc tu : Transaction), 1 ≤ d → d ≤ 64 →
    tp.cmd = encode (.pack d so bo) → tc.cmd = encode (.packChk d so bo) → tc.samples = tp.samples →
    tu.cmd = encode (.unpack d so bo) → tu.bytes = (respond tp).outb → tu.count = tp.samples.length →
    (respond tp).status = 0#4 ∧ (respond tu).status = 0#4 ∧
    (respond tu).outs = tp.samples.map (fun v => BitVec.ofNat 64 (v.toNat % 2 ^ d)) ∧
    ((∀ v ∈ tp.samples, v.toNat < 2 ^ d) →
      respond tc = respond tp ∧ (respond tu).outs = tp.samples)

/-- R92: packing what UNPACK gave writes the bytes it read with the pad bits cleared, so on a canonical buffer the same
bytes. -/
def Obligations.PackOfUnpackRestoresBytes : Prop :=
  ∀ (B : List Byte) (d count : Nat) (so bo : BitOrder) (r : Response),
    unpackResult d so bo B count = .ok r →
    (packBytes r.outs d so bo).length = (count * d + 7) / 8 ∧
    (∀ q b, q < (count * d + 7) / 8 → b < 8 →
      ((packBytes r.outs d so bo).getD q 0#8).getLsbD (byteBitPos bo b) =
        (decide (8 * q + b < count * d) && (B.getD q 0#8).getLsbD (byteBitPos bo b))) ∧
    (B.length = (count * d + 7) / 8 →
      (∀ k, count * d ≤ k → k < 8 * B.length → gather B bo k = false) → packBytes r.outs d so bo = B)

/-- R93: every word UNPACK emits is below `2^d`, so PACK.CHK on them raises no RangeError. -/
def Obligations.UnpackedWordsInRange : Prop :=
  ∀ (B : List Byte) (d count : Nat) (so bo so' bo' : BitOrder) (r : Response),
    unpackResult d so bo B count = .ok r →
      (∀ v ∈ r.outs, v.toNat < 2 ^ d) ∧ ∃ r', packChkResult d so' bo' r.outs = .ok r'

/-- R125: unpacking with another count: a smaller one gives the first samples; a larger one the samples followed by what
the pad bits and surplus bytes hold, 0 for a buffer PACK made; one that needs more bytes a LengthError. -/
def Obligations.CountMismatchExactly : Prop :=
  ∀ (S : List Sample) (X : List Byte) (d count : Nat) (so bo : BitOrder), 1 ≤ d → d ≤ 64 → count ≠ S.length →
    let B := packBytes S d so bo ++ X
    let S' := S.map (fun v => BitVec.ofNat 64 (v.toNat % 2 ^ d))
    ((count < S.length →
      unpackResult d so bo B count =
        .ok { status := 0#4, wtag := tagOf d, outb := [], outs := S'.take count }) ∧
    (S.length < count → (count * d + 7) / 8 ≤ B.length →
      ∃ rest, unpackResult d so bo B count =
          .ok { status := 0#4, wtag := tagOf d, outb := [], outs := S' ++ rest } ∧
        rest.length = count - S.length ∧
        (∀ i j, (hi : i < rest.length) → j < d →
          rest[i].getLsbD (sampleBitIndex so d j) = gather B bo ((S.length + i) * d + j)) ∧
        (X = [] → rest = List.replicate (count - S.length) 0#64)) ∧
    (B.length < (count * d + 7) / 8 → unpackResult d so bo B count = .error .lengthError))

/-! ## The instructions complete (41_pack.md R77, R78; 42_unpack.md R88; 43_width_select.md R97) -/

/-- PACK at a valid depth ends with the success response of R77: the packed bytes, truncating, and WTAG. -/
def Obligations.PackCompletes : Prop :=
  ∀ (s : State) (t : Transaction) (d : Nat) (so bo : BitOrder), s.held = some t → 1 ≤ d → d ≤ 64 →
    exec (.pack d so bo) s = .next (s.emit
      { status := 0#4, wtag := tagOf d, outb := place (stream t.samples d so) bo, outs := [] })

/-- PACK.CHK at a valid depth with every sample in range ends with the response PACK would give; with one sample out of
range it ends with RangeError and no output (R78, R103). -/
def Obligations.PackChkCompletesOrRangeError : Prop :=
  ∀ (s : State) (t : Transaction) (d : Nat) (so bo : BitOrder), s.held = some t → 1 ≤ d → d ≤ 64 →
    ((∀ v ∈ t.samples, v.toNat < 2 ^ d) →
      exec (.packChk d so bo) s = .next (s.emit
        { status := 0#4, wtag := tagOf d, outb := place (stream t.samples d so) bo, outs := [] })) ∧
    ((∃ v ∈ t.samples, 2 ^ d ≤ v.toNat) → exec (.packChk d so bo) s = .next (s.emit (errorRsp 3#4)))

/-- UNPACK at a valid depth with enough bytes ends with the `count` decoded words; with fewer it ends with LengthError and
no output (R88, R104). -/
def Obligations.UnpackCompletesOrLengthError : Prop :=
  ∀ (s : State) (t : Transaction) (d : Nat) (so bo : BitOrder), s.held = some t → 1 ≤ d → d ≤ 64 →
    ((t.count * d + 7) / 8 ≤ t.bytes.length →
      exec (.unpack d so bo) s = .next (s.emit
        { status := 0#4, wtag := tagOf d, outb := [],
          outs := (List.range t.count).map (unpackValue t.bytes d so bo) })) ∧
    (t.bytes.length < (t.count * d + 7) / 8 → exec (.unpack d so bo) s = .next (s.emit (errorRsp 4#4)))

/-- NWIDTH at a valid depth ends with the width tag alone (R97). -/
def Obligations.NwidthCompletes : Prop :=
  ∀ (s : State) (t : Transaction) (d : Nat), s.held = some t → 1 ≤ d → d ≤ 64 →
    exec (.nwidth d) s = .next (s.emit { status := 0#4, wtag := tagOf d, outb := [], outs := [] })

/-- R102: every instruction ends with DomainError exactly for the depths outside [1, 64], before any operand is looked
at. -/
def Obligations.DomainErrorOutsideDepths : Prop :=
  ∀ (s : State) (t : Transaction) (i : Instr), s.held = some t → i.depth = 0 ∨ 65 ≤ i.depth →
    exec i s = .next (s.emit (errorRsp 2#4))

/-- The edge of a transaction: an instruction is run only for an instance that holds a transaction (R26's guard of
Complete); asked for on any other it stops with the model's one fault (log entry 10). -/
def Obligations.ExecNeedsHeldTransaction : Prop :=
  ∀ (i : Instr) (s : State),
    ((∃ s', exec i s = .next s') ↔ ∃ t, s.held = some t) ∧
    (s.held = none → exec i s = .fault .noTransaction)

/-- What every instruction leaves unchanged: the parameters, the events pending, every other instance, and of its own
instance all but PHASE (IDLE again) and the one response added at the end. -/
def Obligations.InstructionFrame : Prop :=
  ∀ (i : Instr) (s s' : State), exec i s = .next s' →
    s'.params = s.params ∧ s'.inputs = s.inputs ∧ s'.cur = s.cur ∧
    s'.instances.length = s.instances.length ∧
    (∀ k, k ≠ s.cur → s'.instances[k]? = s.instances[k]?) ∧
    ∃ c r, s.instances[s.cur]? = some c ∧
      s'.instances[s.cur]? =
        some { phase := .idle, resetApplied := c.resetApplied, responses := c.responses ++ [r] }

/-! ## The width selector (43_width_select.md) -/

/-- R94, R95, R98: `NW(d)` is the smallest of 8, 16, 32, 64 that `d` fits, its tag, and its laws. -/
def Obligations.NativeWidthLaws : Prop :=
  (∀ d, 1 ≤ d → d ≤ 64 →
    d ≤ (nativeWidth d).bits ∧
    (∀ w : NativeWidth, d ≤ w.bits → (nativeWidth d).bits ≤ w.bits) ∧
    (nativeWidth d).bits = 8 * 2 ^ (nativeWidth d).tag.toNat ∧
    (nativeWidth d).tag = tagOf d ∧
    (5 ≤ d → (nativeWidth d).bits < 2 * d) ∧ (d ≤ 4 → (nativeWidth d).bits = 8) ∧
    ((nativeWidth d).bits = d ↔ d = 8 ∨ d = 16 ∨ d = 32 ∨ d = 64)) ∧
  (∀ d e, 1 ≤ d → d ≤ e → e ≤ 64 → (nativeWidth d).bits ≤ (nativeWidth e).bits)

/-! ## Outcomes (60_exceptions.md) -/

/-- R100 to R104, R106: which STATUS a transaction gets: IllegalCommand first, then DomainError, then PACK.CHK's
RangeError or UNPACK's LengthError, else OK; and no other value. -/
def Obligations.StatusByPriority : Prop :=
  ∀ t : Transaction,
    let op := t.cmd.toNat % 4
    let d := t.cmd.toNat / 4 % 128
    let strict := t.cmd.toNat / 2048 % 2
    let bad := t.cmd.toNat / 4096 ≠ 0 ∨ op = 3 ∨ (op = 1 ∧ strict = 1) ∨ (op = 2 ∧ t.cmd.toNat / 512 % 8 ≠ 0)
    let dom := d = 0 ∨ 65 ≤ d
    let range := op = 0 ∧ strict = 1 ∧ ∃ v ∈ t.samples, 2 ^ d ≤ v.toNat
    let len := op = 1 ∧ t.bytes.length < (t.count * d + 7) / 8
    ((respond t).status = 1#4 ↔ bad) ∧
    ((respond t).status = 2#4 ↔ ¬ bad ∧ dom) ∧
    ((respond t).status = 3#4 ↔ ¬ bad ∧ ¬ dom ∧ range) ∧
    ((respond t).status = 4#4 ↔ ¬ bad ∧ ¬ dom ∧ len) ∧
    ((respond t).status = 0#4 ↔ ¬ bad ∧ ¬ dom ∧ ¬ range ∧ ¬ len) ∧
    ¬ (range ∧ len)

/-- R107: when a transaction ends in an error, what its instance emits has WTAG 0 and no output, PHASE is IDLE again, and
nothing else of the machine has changed. -/
def Obligations.ErrorResponseCarriesNothing : Prop :=
  ∀ (s s' : State) (k : Nat) (c : Inst) (t : Transaction) (es : List Event),
    s.inputs = .complete k :: es → s.instances[k]? = some c → c.phase = .busy t → step s = .next s' →
    ∃ r, s' = withInst s k { c with phase := .idle, responses := c.responses ++ [r] } es ∧
      (r.status ≠ 0#4 → r = errorRsp r.status ∧
        (r.status = 1#4 ∨ r.status = 2#4 ∨ r.status = 3#4 ∨ r.status = 4#4))

/-- R23, R96: what a success carries, by operation: WTAG = NW(d) always, OUTB only from the packer with `ceil8(n*d)` bytes,
OUTS only from UNPACK with `count` words. -/
def Obligations.SuccessResponseContent : Prop :=
  ∀ t : Transaction, (respond t).status = 0#4 →
    (respond t).wtag = tagOf (t.cmd.toNat / 4 % 128) ∧
    (t.cmd.toNat % 4 = 0 →
      (respond t).outb.length = (t.samples.length * (t.cmd.toNat / 4 % 128) + 7) / 8 ∧ (respond t).outs = []) ∧
    (t.cmd.toNat % 4 = 1 → (respond t).outb = [] ∧ (respond t).outs.length = t.count) ∧
    (t.cmd.toNat % 4 = 2 → (respond t).outb = [] ∧ (respond t).outs = [])

/-- R22: an operand the operation does not read has no effect on the response. -/
def Obligations.UnreadOperandsIgnored : Prop :=
  ∀ t t' : Transaction, t.cmd = t'.cmd →
    (t.cmd.toNat % 4 = 0 → t.samples = t'.samples) →
    (t.cmd.toNat % 4 = 1 → t.bytes = t'.bytes ∧ t.count = t'.count) →
    respond t = respond t'

/-! ## The machine (10_state.md, 20_memory.md, 70_reset_and_hazards.md) -/

/-- A step that completes an instance runs the instruction its command word decodes to, on the state with that instance
selected and the completion event taken; an illegal word raises IllegalCommand there instead. -/
def Obligations.StepRunsDecodedInstruction : Prop :=
  ∀ (s : State) (k : Nat) (c : Inst) (t : Transaction) (es : List Event),
    s.inputs = .complete k :: es → s.instances[k]? = some c → c.phase = .busy t →
    (∀ i, decode t.cmd = .ok i → step s = exec i ((s.select k).withInputs es)) ∧
    (∀ e, decode t.cmd = .error e → step s = .next (((s.select k).withInputs es).raise .illegalCommand))

/-- The command `withFetchWord` places is the one the very next step runs (the model's own device, log entry 8). -/
def Obligations.PlacedWordRunsNext : Prop :=
  ∀ (s : State) (nbits w : Nat) (i : Instr), s.cur < s.instances.length →
    decodeTableWord nbits w = some i →
    ∃ s', step (s.withFetchWord nbits w) = .next s' ∧
      exec i ((s.withFetchWord nbits w).withInputs s.inputs) = .next s' ∧
      s'.inputs = s.inputs ∧ s'.params = s.params ∧ s'.cur = s.cur

/-- R55: decoding and dispatching gives, for every transaction, the response `Exec(t)` the rule's pseudocode computes from
the raw fields of CMD. -/
def Obligations.CompletionEmitsExec : Prop :=
  ∀ (s : State) (k : Nat) (c : Inst) (t : Transaction) (es : List Event),
    s.inputs = .complete k :: es → s.instances[k]? = some c → c.phase = .busy t →
    step s = .next (withInst s k { c with phase := .idle, responses := c.responses ++ [respond t] } es)

/-- Accept (R26): an idle instance whose reset is not applied takes an offer that keeps within capacity as it stands, whole;
a busy one completes first while the offer waits (R42; that it waits is log entry 2). -/
def Obligations.AcceptOnlyWhenIdle : Prop :=
  ∀ (s : State) (k : Nat) (c : Inst) (t : Transaction) (es : List Event),
    s.inputs = .offer k t :: es → s.instances[k]? = some c → c.resetApplied = false →
    (c.phase = .idle → withinCapacity s.params t = true →
      step s = .next (withInst s k { c with phase := .busy t } es)) ∧
    (∀ u, c.phase = .busy u →
      step s = .next (withInst s k { c with phase := .idle, responses := c.responses ++ [respond u] } s.inputs))

/-- From section 1 of 70_reset_and_hazards.md: reset in any phase leaves the instance IDLE with no response for a
transaction in progress and no part of its output; a transaction offered while reset is applied is not accepted; once
reset is released an offer is accepted at once (R123); the aborted transaction offered again gets its one response
(vectors RS-2, RS-3); and the parameters are as they were (R27).  The model's own readings in it: reset has an extent,
from applied to released, and an offer made in it is dropped, where R121 says only "not accepted" (both log entry 4,
DEDUCED); the record of responses already emitted survives reset (log entry 5, DEDUCED). -/
def Obligations.ResetAbortsWithoutResponse : Prop :=
  ∀ (s : State) (k : Nat) (c : Inst) (es : List Event), s.instances[k]? = some c →
    (s.inputs = .applyReset k :: es →
      step s = .next (withInst s k { phase := .idle, resetApplied := true, responses := c.responses } es)) ∧
    (∀ t, c.resetApplied = true → s.inputs = .offer k t :: es → step s = .next (withInst s k c es)) ∧
    (∀ t, c.phase = .idle → s.inputs = .releaseReset k :: .offer k t :: es →
      withinCapacity s.params t = true →
      Host.Core.run Sys2Proof.core 2 s =
        .next (withInst s k { phase := .busy t, resetApplied := false, responses := c.responses } es)) ∧
    (∀ t, c.phase = .busy t →
      s.inputs = .applyReset k :: .releaseReset k :: .offer k t :: .complete k :: es →
      withinCapacity s.params t = true →
      Host.Core.run Sys2Proof.core 4 s = .next (withInst s k
        { phase := .idle, resetApplied := false, responses := c.responses ++ [respond t] } es))

/-- R26, R119: an instance's PHASE and responses change only by Accept, Complete and Reset. -/
def Obligations.PhaseChangesOnlyByThreeSteps : Prop :=
  ∀ (s s' : State) (k : Nat) (c c' : Inst), step s = .next s' →
    s.instances[k]? = some c → s'.instances[k]? = some c' →
    (c'.phase = c.phase ∧ c'.responses = c.responses) ∨
    (∃ t es, s.inputs = .offer k t :: es ∧ c.phase = .idle ∧ c.resetApplied = false ∧
      c'.phase = .busy t ∧ c'.responses = c.responses) ∨
    (∃ t, c.phase = .busy t ∧ c'.phase = .idle ∧ c'.responses = c.responses ++ [respond t]) ∨
    (∃ es, s.inputs = .applyReset k :: es ∧ c'.phase = .idle ∧ c'.responses = c.responses)

/-- With nothing pending and nothing in progress the machine rests (R119).  The converse, that with nothing pending it does
not rest while an instance is BUSY, is no rule of the spec: it is the model's choice of schedule (log entry 2). -/
def Obligations.QuietMachineRests : Prop :=
  ∀ s : State, s.inputs = [] →
    ((∀ c ∈ s.instances, c.phase = .idle) ↔ step s = .next s)

/-- The invariant of the platform is kept by every step. -/
def Obligations.StepKeepsInv : Prop :=
  ∀ s s' : State, s.Inv → step s = .next s' → s'.Inv

/-- R27, R120: the state after reset, at every value of the parameters (State.reset's own are log entry 1): every instance IDLE, no transaction held and no
response pending; and the invariant holds there. -/
def Obligations.ResetStateMeetsInv : Prop :=
  (∀ p : Params, 1 ≤ p.numInstances → (State.resetOf p).Inv) ∧
  (∀ p : Params, (State.resetOf p).params = p ∧ (State.resetOf p).inputs = [] ∧
    (State.resetOf p).instances.length = p.numInstances ∧
    ∀ c ∈ (State.resetOf p).instances, c.phase = .idle ∧ c.resetApplied = false ∧ c.responses = []) ∧
  State.reset.Inv

/-- The parameters are configuration: no step changes them, and no step adds or removes an instance (R20, R27). -/
def Obligations.StepKeepsConfiguration : Prop :=
  ∀ s s' : State, step s = .next s' → s'.params = s.params ∧ s'.instances.length = s.instances.length

/-- R117: a step touches one instance, the one it turns to; every other keeps all it holds. -/
def Obligations.StepTouchesOneInstance : Prop :=
  ∀ (s s' : State) (k : Nat), step s = .next s' → k ≠ s'.cur → s'.instances[k]? = s.instances[k]?

/-- R42, R117: what an event does to its instance depends on nothing any other instance holds: two platforms that agree on
the parameters, the events and that one instance agree on it after the step. -/
def Obligations.InstancesCannotObserveEachOther : Prop :=
  ∀ (s1 s2 s1' s2' : State) (e : Event) (es : List Event), s1.params = s2.params →
    s1.inputs = e :: es → s2.inputs = e :: es →
    s1.instances[e.target]? = s2.instances[e.target]? →
    step s1 = .next s1' → step s2 = .next s2' →
    s1'.instances[e.target]? = s2'.instances[e.target]? ∧ s1'.inputs = s2'.inputs

/-- R15, R36, R109: a response depends on the transaction alone: not on the machine, the responses before it, or an error
before it. -/
def Obligations.ResponseDependsOnTransactionAlone : Prop :=
  ∀ (s1 s2 s1' s2' : State) (k1 k2 : Nat) (c1 c2 c1' c2' : Inst) (t : Transaction) (es1 es2 : List Event),
    s1.inputs = .complete k1 :: es1 → s2.inputs = .complete k2 :: es2 →
    s1.instances[k1]? = some c1 → s2.instances[k2]? = some c2 → c1.phase = .busy t → c2.phase = .busy t →
    step s1 = .next s1' → step s2 = .next s2' →
    s1'.instances[k1]? = some c1' → s2'.instances[k2]? = some c2' →
    c1'.responses.getLast? = c2'.responses.getLast? ∧ c1'.responses.getLast? ≠ none

/-- The machine never stops with a fault, and refuses only an event for an instance the platform does not hold (log entry
6) or a transaction over capacity at the moment it would be accepted (R8, log entry 9). -/
def Obligations.StepStopsOnlyWhereRefused : Prop :=
  ∀ s : State, SafeOutcome (step s) ∧
    (step s = .refused .noSuchInstance ↔ ∃ e es, s.inputs = e :: es ∧ s.instances.length ≤ e.target) ∧
    (step s = .refused .overCapacity ↔ ∃ k t es c, s.inputs = .offer k t :: es ∧ s.instances[k]? = some c ∧
      c.resetApplied = false ∧ c.phase = .idle ∧ withinCapacity s.params t = false)

/-- R7, R8, R22, read as log entry 9 says: the capacity of a transaction in numbers, for commands at a valid depth: the samples of a pack and the count of an
unpack against `MAX_SAMPLES`, bytes in and out against `MAX_BYTES`, the count operand against `COUNT_BITS`. -/
def Obligations.CapacityInNumbers : Prop :=
  ∀ (p : Params) (t : Transaction) (d : Nat) (so bo : BitOrder) (ms mb cb : Nat), 1 ≤ d → d ≤ 64 →
    p.maxSamples = some ms → p.maxBytes = some mb → p.countBits = some cb →
    (t.cmd = encode (.pack d so bo) → (withinCapacity p t = true ↔
      t.samples.length ≤ ms ∧ t.bytes.length ≤ mb ∧ (t.samples.length * d + 7) / 8 ≤ mb ∧ t.count < 2 ^ cb)) ∧
    (t.cmd = encode (.packChk d so bo) → (withinCapacity p t = true ↔
      t.samples.length ≤ ms ∧ t.bytes.length ≤ mb ∧
      ((∀ v ∈ t.samples, v.toNat < 2 ^ d) → (t.samples.length * d + 7) / 8 ≤ mb) ∧ t.count < 2 ^ cb)) ∧
    (t.cmd = encode (.unpack d so bo) → (withinCapacity p t = true ↔
      t.count ≤ ms ∧ t.bytes.length ≤ mb ∧ t.count < 2 ^ cb)) ∧
    (t.cmd = encode (.nwidth d) → (withinCapacity p t = true ↔ t.bytes.length ≤ mb ∧ t.count < 2 ^ cb))

/-- R42, under the model's schedule (log entry 2): a program of transactions offered to one instance, each completed before the next is offered, gets its responses
in the order the transactions were accepted, each `Exec(t)`, whatever the other instances hold; they keep it. -/
def Obligations.ProgramRespondsInOrder : Prop :=
  ∀ (s : State) (k : Nat) (c : Inst) (ts : List Transaction),
    s.instances[k]? = some c → c.phase = .idle → c.resetApplied = false →
    s.inputs = ts.flatMap (fun t => [Event.offer k t, Event.complete k]) →
    (∀ t ∈ ts, withinCapacity s.params t = true) →
    ∃ s', Host.Core.run Sys2Proof.core (2 * ts.length) s = .next s' ∧ s'.inputs = [] ∧ s'.params = s.params ∧
      s'.instances = s.instances.set k { c with responses := c.responses ++ ts.map respond }

/-- With acceptable events the machine is quiet after a bounded number of steps: nothing stays BUSY.  The schedule, and that
what is in progress completes when no event is pending, are the model's choice (log entry 2) of R129's fairness. -/
def Obligations.MachineBecomesQuiet : Prop :=
  ∀ s : State, (∀ e ∈ s.inputs, e.Acceptable s) →
    ∃ s', Host.Core.run Sys2Proof.core (work s) s = .next s' ∧ s'.Quiet

/-- An accepted transaction completes with its response unless reset aborts it: if no reset of its instance is among the
events to come, then within the bound it has completed.  R129 under the model's schedule (log entry 2). -/
def Obligations.AcceptedTransactionCompletes : Prop :=
  ∀ (s : State) (k : Nat) (c : Inst) (t : Transaction), (∀ e ∈ s.inputs, e.Acceptable s) →
    s.instances[k]? = some c → c.phase = .busy t → Event.applyReset k ∉ s.inputs →
    ∃ n s' c', n ≤ work s ∧ Host.Core.run Sys2Proof.core n s = .next s' ∧ s'.instances[k]? = some c' ∧
      c'.phase = .idle ∧ c'.responses = c.responses ++ [respond t]

/-- A buffer a host places at `base` has byte `q` at `base + q`, as section 2 of 20_memory.md says.  That nothing stands
elsewhere, and that the buffer is fetched back whole, come from the model's own functions on a list of cells (log entry
14, DEDUCED). -/
def Obligations.HostLayoutKeepsByteOrder : Prop :=
  ∀ (base : Nat) (P : List Byte),
    (∀ q, hostRead (hostPlace base P) (base + q) = P[q]?) ∧
    (∀ a, a < base → hostRead (hostPlace base P) a = none) ∧
    hostFetch (hostPlace base P) base P.length = some P
end

