-- ==== Sys2Proof/Laws/Bits.lean ====
section
/-! SUPPORT. The bit primitives: one bit set, the exact ceiling, and folds that set one bit after another. -/

namespace Sys2Proof.Machine

/-- `v[j] <- b` sets bit `j` and leaves every other bit (R9). -/
theorem getLsbD_setBit {w : Nat} (v : BitVec w) (j p : Nat) (b : Bool) :
    (setBit v j b).getLsbD p = if p = j ∧ p < w then b else v.getLsbD p := by
  by_cases hw : p < w
  · by_cases hp : p = j
    · subst hp
      cases b <;> simp [setBit, hw]
    · cases b <;> simp [setBit, hp, hw]
  · have hn : ¬ (p = j ∧ p < w) := fun h => hw h.2
    rw [if_neg hn, BitVec.getLsbD_of_ge v p (by omega)]
    exact BitVec.getLsbD_of_ge _ _ (by omega)

theorem ceil8_mul_ge (x : Nat) : x ≤ 8 * ceil8 x := by
  unfold ceil8
  omega

theorem ceil8_mul_lt (x : Nat) : 8 * ceil8 x < x + 8 := by
  unfold ceil8
  omega

@[simp] theorem ceil8_zero : ceil8 0 = 0 := rfl

@[simp] theorem ceil8_mul_eight (x : Nat) : ceil8 (8 * x) = x := by
  unfold ceil8
  omega

theorem div_lt_ceil8 {k n : Nat} (h : k < n) : k / 8 < ceil8 n := by
  unfold ceil8
  omega

/-- A fold that sets bit `pos j` to `f j` for every `j` below `n`, where `inv` undoes `pos`: bit `p` is what its own
`j` set, or what was there. -/
theorem getLsbD_foldl_setBit {w : Nat} (n : Nat) (pos inv : Nat → Nat) (f : Nat → Bool) (v : BitVec w)
    (hinv : ∀ j < n, inv (pos j) = j) (p : Nat) (hp : p < w) :
    ((List.range n).foldl (fun v j => setBit v (pos j) (f j)) v).getLsbD p =
      if inv p < n ∧ pos (inv p) = p then f (inv p) else v.getLsbD p := by
  induction n with
  | zero => simp
  | succ n ih =>
    rw [List.range_succ, List.foldl_append, List.foldl_cons, List.foldl_nil, getLsbD_setBit,
      ih (fun j hj => hinv j (by omega))]
    by_cases hn : p = pos n
    · subst hn
      simp [hp, hinv n (by omega)]
    · have hne : ∀ h : pos (inv p) = p, inv p ≠ n := fun h e => hn (by rw [← h, e])
      rw [if_neg (fun h => hn h.1)]
      by_cases h : pos (inv p) = p
      · have := hne h
        have hiff : inv p < n ↔ inv p < n + 1 := by omega
        simp [h, hiff]
      · simp [h]

end Sys2Proof.Machine
end

