-- ==== Sys2Proof/Laws/BitOrder.lean ====
section
/-! SUPPORT. The steering mux bit by bit: lengths, the bit at a stream position, the bit at a byte position. -/

namespace Sys2Proof.Machine

@[simp] theorem byteBitPos_lt {bo : BitOrder} {r : Nat} (h : r < 8) : byteBitPos bo r < 8 := by
  cases bo <;> simp only [byteBitPos] <;> omega

theorem sampleBitIndex_lt {so : BitOrder} {d j : Nat} (h : j < d) : sampleBitIndex so d j < d := by
  cases so <;> simp only [sampleBitIndex] <;> omega

@[simp] theorem length_sampleSegment (d : Nat) (so : BitOrder) (v : Sample) : (sampleSegment d so v).length = d := by
  simp [sampleSegment]

@[simp] theorem stream_nil (d : Nat) (so : BitOrder) : stream [] d so = [] := rfl

@[simp] theorem stream_cons (v : Sample) (s : List Sample) (d : Nat) (so : BitOrder) :
    stream (v :: s) d so = sampleSegment d so v ++ stream s d so := rfl

theorem stream_append (s1 s2 : List Sample) (d : Nat) (so : BitOrder) :
    stream (s1 ++ s2) d so = stream s1 d so ++ stream s2 d so := by
  simp [stream]

@[simp] theorem length_stream (s : List Sample) (d : Nat) (so : BitOrder) :
    (stream s d so).length = s.length * d := by
  induction s with
  | nil => simp
  | cons v s ih => simp [ih, Nat.add_mul, Nat.add_comm]

@[simp] theorem length_place (t : List Bool) (bo : BitOrder) : (place t bo).length = ceil8 t.length := by
  simp [place]

theorem place_getElem? (t : List Bool) (bo : BitOrder) (q : Nat) :
    (place t bo)[q]? = if q < ceil8 t.length then some (placeByte t bo q) else none := by
  by_cases h : q < ceil8 t.length <;> simp [place, h]

theorem byteBitPos_byteBitPos (bo : BitOrder) {r : Nat} (h : r < 8) : byteBitPos bo (byteBitPos bo r) = r := by
  cases bo <;> simp only [byteBitPos]
  omega

theorem sampleBitIndex_sampleBitIndex (so : BitOrder) {d j : Nat} (h : j < d) :
    sampleBitIndex so d (sampleBitIndex so d j) = j := by
  cases so <;> simp only [sampleBitIndex]
  omega

theorem getLsbD_placeBit (t : List Bool) (bo : BitOrder) (q r p : Nat) (v : Byte) (hp : p < 8) :
    (placeBit t bo q v r).getLsbD p =
      if p = byteBitPos bo r ∧ 8 * q + r < t.length then t.getD (8 * q + r) false else v.getLsbD p := by
  unfold placeBit
  by_cases h : 8 * q + r < t.length
  · rw [List.getElem?_eq_getElem h]
    simp only [getLsbD_setBit]
    simp [h, hp]
  · rw [List.getElem?_eq_none (by omega)]
    simp [h]

/-- Bit `p` of byte `q` is the stream bit that ByteBitPos places there, and 0 where the stream has ended (R62, R64). -/
theorem getLsbD_placeByte (t : List Bool) (bo : BitOrder) (q p : Nat) (hp : p < 8) :
    (placeByte t bo q).getLsbD p = t.getD (8 * q + byteBitPos bo p) false := by
  have fold : ∀ n ≤ 8, ((List.range n).foldl (placeBit t bo q) 0#8).getLsbD p =
      if byteBitPos bo p < n then t.getD (8 * q + byteBitPos bo p) false else false := by
    intro n
    induction n with
    | zero => simp
    | succ n ih =>
      intro hn
      rw [List.range_succ, List.foldl_append, List.foldl_cons, List.foldl_nil, getLsbD_placeBit _ _ _ _ _ _ hp,
        ih (by omega)]
      by_cases h : p = byteBitPos bo n
      · subst h
        rw [byteBitPos_byteBitPos bo (by omega)]
        by_cases hk : 8 * q + n < t.length <;> simp [hk]
      · have hne : byteBitPos bo p ≠ n := fun e => h (by rw [← e, byteBitPos_byteBitPos bo hp])
        rw [if_neg (fun c => h c.1)]
        congr 1
        exact propext (by omega)
  rw [placeByte, fold 8 (by omega), if_pos (byteBitPos_lt hp)]

/-- Gather reads bit `k mod 8` of byte `k div 8` in BORD's order (R65). -/
theorem gather_of_getElem? {b : List Byte} {bo : BitOrder} {k : Nat} {v : Byte} (h : b[k / 8]? = some v) :
    gather b bo k = v.getLsbD (byteBitPos bo (k % 8)) := by
  simp [gather, memRead, h]

end Sys2Proof.Machine
end

