-- ==== Sys2Proof/Laws/Decode.lean ====
section
/-! SUPPORT. The fields of a command word as natural arithmetic, and what the decoder makes of them. -/

namespace Sys2Proof

theorem opField_eq (c : Cmd) : opField c = c.toNat % 4 := by
  simp [opField, BitVec.extractLsb'_toNat]

theorem depthField_eq (c : Cmd) : depthField c = c.toNat / 4 % 128 := by
  simp [depthField, BitVec.extractLsb'_toNat, Nat.shiftRight_eq_div_pow]

theorem rsvField_eq (c : Cmd) : rsvField c = c.toNat / 4096 := by
  have := c.isLt
  simp only [rsvField, BitVec.extractLsb'_toNat, Nat.shiftRight_eq_div_pow]
  omega

theorem sordBit_eq (c : Cmd) : sordBit c = decide (c.toNat / 512 % 2 = 1) := by
  simp [sordBit, BitVec.getLsbD, Nat.testBit_eq_decide_div_mod_eq]

theorem bordBit_eq (c : Cmd) : bordBit c = decide (c.toNat / 1024 % 2 = 1) := by
  simp [bordBit, BitVec.getLsbD, Nat.testBit_eq_decide_div_mod_eq]

theorem strictBit_eq (c : Cmd) : strictBit c = decide (c.toNat / 2048 % 2 = 1) := by
  simp [strictBit, BitVec.getLsbD, Nat.testBit_eq_decide_div_mod_eq]

theorem opField_lt (c : Cmd) : opField c < 4 := by
  rw [opField_eq]
  omega

theorem depthField_lt (c : Cmd) : depthField c < 128 := by
  rw [depthField_eq]
  omega

@[simp] theorem BitOrder.bit_ofBit (b : Bool) : (BitOrder.ofBit b).bit = b := by cases b <;> rfl

@[simp] theorem BitOrder.ofBit_bit (o : BitOrder) : BitOrder.ofBit o.bit = o := by cases o <;> rfl

/-- A command word is its fields, weighted as R49 weights them. -/
theorem toNat_eq_fields (c : Cmd) :
    c.toNat = opField c + 4 * depthField c + 512 * (sordBit c).toNat + 1024 * (bordBit c).toNat
      + 2048 * (strictBit c).toNat + 4096 * rsvField c := by
  have := c.isLt
  rw [opField_eq, depthField_eq, sordBit_eq, bordBit_eq, strictBit_eq, rsvField_eq]
  simp only [Bool.toNat, Bool.cond_decide]
  split_ifs <;> omega

/-- The fields of a word built from fields in range. -/
theorem fields_of_sum (op d : Nat) (so bo st : Bool) (hop : op < 4) (hd : d < 128) :
    let c : Cmd := BitVec.ofNat 16 (op + 4 * d + 512 * so.toNat + 1024 * bo.toNat + 2048 * st.toNat)
    opField c = op ∧ depthField c = d ∧ sordBit c = so ∧ bordBit c = bo ∧ strictBit c = st
      ∧ rsvField c = 0 := by
  simp only [opField_eq, depthField_eq, sordBit_eq, bordBit_eq, strictBit_eq, rsvField_eq,
    BitVec.toNat_ofNat]
  cases so <;> cases bo <;> cases st <;>
    simp only [Bool.toNat_true, Bool.toNat_false, decide_eq_true_eq, decide_eq_false_iff_not] <;> omega

/-- What the decoder answers, field by field. -/
theorem decode_eq_ok {c : Cmd} {i : Instr} (h : decode c = .ok i) :
    rsvField c = 0 ∧
      ((opField c = 0 ∧ strictBit c = false ∧
          i = .pack (depthField c) (.ofBit (sordBit c)) (.ofBit (bordBit c))) ∨
        (opField c = 0 ∧ strictBit c = true ∧
          i = .packChk (depthField c) (.ofBit (sordBit c)) (.ofBit (bordBit c))) ∨
        (opField c = 1 ∧ strictBit c = false ∧
          i = .unpack (depthField c) (.ofBit (sordBit c)) (.ofBit (bordBit c))) ∨
        (opField c = 2 ∧ strictBit c = false ∧ bordBit c = false ∧ sordBit c = false ∧
          i = .nwidth (depthField c))) := by
  unfold decode at h
  split at h
  · cases h
  · rename_i hr
    refine ⟨by simpa using hr, ?_⟩
    dsimp only at h
    split at h
    · rename_i ho
      split at h
      · rename_i hs
        exact .inr (.inl ⟨ho, hs, by cases h; rfl⟩)
      · rename_i hs
        exact .inl ⟨ho, by simpa using hs, by cases h; rfl⟩
    · rename_i ho
      split at h
      · cases h
      · rename_i hs
        exact .inr (.inr (.inl ⟨ho, by simpa using hs, by cases h; rfl⟩))
    · rename_i ho
      split at h
      · cases h
      · rename_i hs
        simp only [Bool.or_eq_true, not_or, Bool.not_eq_true] at hs
        exact .inr (.inr (.inr ⟨ho, hs.1.1, hs.1.2, hs.2, by cases h; rfl⟩))
    · cases h

end Sys2Proof
end

