-- ==== Sys2Proof/Laws/State.lean ====
section
/-! SUPPORT. One lemma per field and update of State and its parts. -/

namespace Sys2Proof.Machine

@[simp] theorem Inst.accept_phase (c : Inst) (t : Transaction) : (c.accept t).phase = .busy t := rfl
@[simp] theorem Inst.accept_resetApplied (c : Inst) (t : Transaction) :
    (c.accept t).resetApplied = c.resetApplied := rfl
@[simp] theorem Inst.accept_responses (c : Inst) (t : Transaction) : (c.accept t).responses = c.responses := rfl

@[simp] theorem Inst.complete_phase (c : Inst) (r : Response) : (c.complete r).phase = .idle := rfl
@[simp] theorem Inst.complete_resetApplied (c : Inst) (r : Response) :
    (c.complete r).resetApplied = c.resetApplied := rfl
@[simp] theorem Inst.complete_responses (c : Inst) (r : Response) :
    (c.complete r).responses = c.responses ++ [r] := rfl

@[simp] theorem Inst.applyReset_phase (c : Inst) : c.applyReset.phase = .idle := rfl
@[simp] theorem Inst.applyReset_resetApplied (c : Inst) : c.applyReset.resetApplied = true := rfl
@[simp] theorem Inst.applyReset_responses (c : Inst) : c.applyReset.responses = c.responses := rfl

@[simp] theorem Inst.releaseReset_phase (c : Inst) : c.releaseReset.phase = c.phase := rfl
@[simp] theorem Inst.releaseReset_resetApplied (c : Inst) : c.releaseReset.resetApplied = false := rfl
@[simp] theorem Inst.releaseReset_responses (c : Inst) : c.releaseReset.responses = c.responses := rfl

@[simp] theorem State.select_params (s : State) (k : Nat) : (s.select k).params = s.params := rfl
@[simp] theorem State.select_instances (s : State) (k : Nat) : (s.select k).instances = s.instances := rfl
@[simp] theorem State.select_cur (s : State) (k : Nat) : (s.select k).cur = k := rfl
@[simp] theorem State.select_inputs (s : State) (k : Nat) : (s.select k).inputs = s.inputs := rfl

@[simp] theorem State.withInputs_params (s : State) (es : List Event) : (s.withInputs es).params = s.params := rfl
@[simp] theorem State.withInputs_instances (s : State) (es : List Event) :
    (s.withInputs es).instances = s.instances := rfl
@[simp] theorem State.withInputs_cur (s : State) (es : List Event) : (s.withInputs es).cur = s.cur := rfl
@[simp] theorem State.withInputs_inputs (s : State) (es : List Event) : (s.withInputs es).inputs = es := rfl

@[simp] theorem State.modifyCur_params (s : State) (f : Inst → Inst) : (s.modifyCur f).params = s.params := rfl
@[simp] theorem State.modifyCur_cur (s : State) (f : Inst → Inst) : (s.modifyCur f).cur = s.cur := rfl
@[simp] theorem State.modifyCur_inputs (s : State) (f : Inst → Inst) : (s.modifyCur f).inputs = s.inputs := rfl
@[simp] theorem State.modifyCur_instances (s : State) (f : Inst → Inst) :
    (s.modifyCur f).instances = s.instances.modify s.cur f := rfl

@[simp] theorem State.emit_params (s : State) (r : Response) : (s.emit r).params = s.params := rfl
@[simp] theorem State.emit_cur (s : State) (r : Response) : (s.emit r).cur = s.cur := rfl
@[simp] theorem State.emit_inputs (s : State) (r : Response) : (s.emit r).inputs = s.inputs := rfl
@[simp] theorem State.emit_instances (s : State) (r : Response) :
    (s.emit r).instances = s.instances.modify s.cur (fun c => c.complete r) := rfl

theorem State.raise_eq (s : State) (e : ErrorKind) : s.raise e = s.emit (Response.error e) := rfl

/-- Turning to an instance and taking an event do not touch the instances, so what is held depends on neither. -/
@[simp] theorem State.held_withInputs (s : State) (es : List Event) : (s.withInputs es).held = s.held := rfl

theorem State.held_eq_some {s : State} {t : Transaction} :
    s.held = some t ↔ ∃ c, s.instances[s.cur]? = some c ∧ c.phase = .busy t := by
  unfold State.held State.inst
  cases h : s.instances[s.cur]? with
  | none => simp
  | some c => cases hp : c.phase <;> simp [Phase.held, hp]

theorem State.held_eq_none {s : State} :
    s.held = none ↔ ∀ c, s.instances[s.cur]? = some c → c.phase = .idle := by
  unfold State.held State.inst
  cases h : s.instances[s.cur]? with
  | none => simp
  | some c => cases hp : c.phase <;> simp [Phase.held, hp]

theorem State.getElem?_modifyCur_of_ne (s : State) (f : Inst → Inst) {k : Nat} (h : k ≠ s.cur) :
    (s.modifyCur f).instances[k]? = s.instances[k]? := by
  simp [h.symm]

theorem State.getElem?_modifyCur_self {s : State} {c : Inst} (f : Inst → Inst)
    (h : s.instances[s.cur]? = some c) : (s.modifyCur f).instances[s.cur]? = some (f c) := by
  simp [h]

end Sys2Proof.Machine
end

