-- ==== Sys2Proof/Laws/Ops.lean ====
section
/-! SUPPORT. What the shared operations can do, said once each. -/

namespace Sys2Proof.Machine

/-- `finish` on an instance that holds a transaction: its response is emitted, and nothing else happens. -/
theorem State.finish_of_held {s : State} {t : Transaction} (h : s.held = some t)
    (f : Transaction → Except ErrorKind Response) : s.finish f = .next (s.emit (Response.ofResult (f t))) := by
  unfold State.finish
  rw [h]
  dsimp only
  cases f t <;> rfl

/-- `finish` on an instance that holds none. -/
theorem State.finish_of_not_held {s : State} (h : s.held = none) (f : Transaction → Except ErrorKind Response) :
    s.finish f = .fault .noTransaction := by
  unfold State.finish
  rw [h]

/-- The computation of an instruction on the operands of a transaction. -/
def instrResult (i : Instr) (t : Transaction) : Except ErrorKind Response :=
  match i with
  | .pack d so bo => packResult d so bo t.samples
  | .packChk d so bo => packChkResult d so bo t.samples
  | .unpack d so bo => unpackResult d so bo t.bytes t.count
  | .nwidth d => nwidthResult d

/-- Every arm of `exec` ends the present transaction with what the instruction computes. -/
theorem exec_eq_finish (i : Instr) (s : State) : exec i s = s.finish (instrResult i) := by
  cases i <;> rfl

/-- Everything `exec` can do. -/
theorem exec_cases (i : Instr) (s : State) :
    (∃ t, s.held = some t ∧ exec i s = .next (s.emit (Response.ofResult (instrResult i t)))) ∨
      (s.held = none ∧ exec i s = .fault .noTransaction) := by
  rw [exec_eq_finish]
  cases h : s.held with
  | none => exact .inr ⟨rfl, State.finish_of_not_held h _⟩
  | some t => exact .inl ⟨t, rfl, State.finish_of_held h _⟩

/-- The response the machine emits for a transaction: IllegalCommand where the command word does not decode, else what
the decoded instruction computes. -/
def emitted (t : Transaction) : Response :=
  match decode t.cmd with
  | .error _ => Response.error .illegalCommand
  | .ok i => Response.ofResult (instrResult i t)

/-- Completing on an instance that holds a transaction emits its response. -/
theorem completeCur_of_held {s : State} {t : Transaction} (h : s.held = some t) :
    completeCur s = .next (s.emit (emitted t)) := by
  unfold completeCur emitted
  rw [h]
  dsimp only
  cases decode t.cmd with
  | error e => rfl
  | ok i =>
    dsimp only
    rw [exec_eq_finish, State.finish_of_held h]

/-- Completing on an instance that holds none does nothing. -/
theorem completeCur_of_not_held {s : State} (h : s.held = none) : completeCur s = .next s := by
  unfold completeCur
  rw [h]

theorem Phase.isBusy_iff {p : Phase} : p.isBusy = true ↔ ∃ t, p = .busy t := by
  cases p <;> simp [Phase.isBusy]

/-- The lowest-numbered BUSY instance is BUSY. -/
theorem firstBusy_eq_some {s : State} {k : Nat} (h : firstBusy s = some k) :
    ∃ c t, s.instances[k]? = some c ∧ c.phase = .busy t := by
  unfold firstBusy at h
  rw [List.findIdx?_eq_some_iff_getElem] at h
  obtain ⟨hk, hb, _⟩ := h
  obtain ⟨t, ht⟩ := Phase.isBusy_iff.mp hb
  exact ⟨s.instances[k], t, List.getElem?_eq_getElem hk, ht⟩

/-- No instance is BUSY exactly when every one is IDLE. -/
theorem firstBusy_eq_none {s : State} : firstBusy s = none ↔ ∀ c ∈ s.instances, c.phase = .idle := by
  unfold firstBusy
  rw [List.findIdx?_eq_none_iff]
  refine forall_congr' fun c => forall_congr' fun _ => ?_
  cases c.phase <;> simp [Phase.isBusy]

end Sys2Proof.Machine
end

