-- ==== Sys2Proof/Laws/PerInstr.lean ====
section
/-! SUPPORT. Facts about every instruction as syntax, one lemma per constructor: the fields its command word carries
(30_encoding.md R48, R49). -/

namespace Sys2Proof.Laws.EncodedFields

/-- The word `encode` gives a well-formed instruction carries its OP, DEPTH, orders and STRICT, and RSV = 0. -/
def Statement (i : Instr) : Prop :=
  i.wf = true →
    opField (encode i) = i.op ∧ depthField (encode i) = i.depth ∧ sordBit (encode i) = i.sord ∧
      bordBit (encode i) = i.bord ∧ strictBit (encode i) = i.strict ∧ rsvField (encode i) = 0

theorem pack (d : Nat) (so bo : BitOrder) : Statement (.pack d so bo) := fun h =>
  fields_of_sum 0 d so.bit bo.bit false (by decide) (of_decide_eq_true h)

theorem packChk (d : Nat) (so bo : BitOrder) : Statement (.packChk d so bo) := fun h =>
  fields_of_sum 0 d so.bit bo.bit true (by decide) (of_decide_eq_true h)

theorem unpack (d : Nat) (so bo : BitOrder) : Statement (.unpack d so bo) := fun h =>
  fields_of_sum 1 d so.bit bo.bit false (by decide) (of_decide_eq_true h)

theorem nwidth (d : Nat) : Statement (.nwidth d) := fun h =>
  fields_of_sum 2 d false false false (by decide) (of_decide_eq_true h)

end Sys2Proof.Laws.EncodedFields
end

