-- ==== Sys2Proof/Laws/Step.lean ====
section
/-! SUPPORT. Everything one step of the machine can do. -/

namespace Sys2Proof.Machine

/-- The head of the schedule when instance `k` completes, and the events `es` that are left: nothing is pending, the
completion is the event, or a further offer to the busy instance waits. -/
def CompletionTurn (s : State) (k : Nat) (es : List Event) : Prop :=
  (s.inputs = [] ∧ es = []) ∨ s.inputs = .complete k :: es ∨
    ∃ t rest, s.inputs = .offer k t :: rest ∧ es = s.inputs

/-- The cases of a step that goes on, `k` being the instance it turns to. -/
inductive StepCase (s : State) : State → Prop where
  /-- Nothing is offered and nothing is in progress: nothing happens. -/
  | quiet (hin : s.inputs = []) (hidle : ∀ c ∈ s.instances, c.phase = .idle) : StepCase s s
  /-- Complete. -/
  | complete (k : Nat) (c : Inst) (t : Transaction) (es : List Event) (hk : s.instances[k]? = some c)
      (hp : c.phase = .busy t) (turn : CompletionTurn s k es) :
      StepCase s (((s.select k).withInputs es).emit (emitted t))
  /-- A completion is due on an instance that holds nothing. -/
  | nothingToComplete (k : Nat) (c : Inst) (es : List Event) (hin : s.inputs = .complete k :: es)
      (hk : s.instances[k]? = some c) (hp : c.phase = .idle) : StepCase s ((s.select k).withInputs es)
  /-- An offer while reset is applied is not accepted. -/
  | offerInReset (k : Nat) (c : Inst) (t : Transaction) (es : List Event) (hin : s.inputs = .offer k t :: es)
      (hk : s.instances[k]? = some c) (hr : c.resetApplied = true) : StepCase s ((s.select k).withInputs es)
  /-- Accept. -/
  | accept (k : Nat) (c : Inst) (t : Transaction) (es : List Event) (hin : s.inputs = .offer k t :: es)
      (hk : s.instances[k]? = some c) (hr : c.resetApplied = false) (hp : c.phase = .idle)
      (hfit : withinCapacity s.params t = true) :
      StepCase s (((s.select k).withInputs es).modifyCur (fun x => x.accept t))
  /-- Reset is applied. -/
  | applyReset (k : Nat) (c : Inst) (es : List Event) (hin : s.inputs = .applyReset k :: es)
      (hk : s.instances[k]? = some c) : StepCase s (((s.select k).withInputs es).modifyCur Inst.applyReset)
  /-- Reset is released. -/
  | releaseReset (k : Nat) (c : Inst) (es : List Event) (hin : s.inputs = .releaseReset k :: es)
      (hk : s.instances[k]? = some c) : StepCase s (((s.select k).withInputs es).modifyCur Inst.releaseReset)

theorem held_select {s : State} {k : Nat} {c : Inst} (h : s.instances[k]? = some c) :
    (s.select k).held = c.phase.held := by
  simp [State.held, State.inst, State.select, h]

theorem withInputs_self (s : State) : s.withInputs s.inputs = s := rfl

/-- With no event pending and an instance BUSY, the lowest-numbered one completes. -/
theorem step_of_no_input {s : State} {k : Nat} (hin : s.inputs = []) (hb : firstBusy s = some k) :
    step s = completeCur (s.select k) := by
  simp [step, hin, quietStep, hb]

/-- An event for an instance the platform holds is that instance's. -/
theorem step_of_event {s : State} {e : Event} {es : List Event} {c : Inst} (hin : s.inputs = e :: es)
    (hk : s.instances[e.target]? = some c) : step s = eventCur (s.select e.target) c e es := by
  simp [step, hin, handleEvent, State.inst, hk]

/-- Everything a step that goes on can do. -/
theorem step_cases {s s' : State} (h : step s = .next s') : StepCase s s' := by
  cases hin : s.inputs with
  | nil =>
    cases hb : firstBusy s with
    | none =>
      have : s' = s := by simpa [step, hin, quietStep, hb] using h.symm
      subst this
      exact .quiet hin (firstBusy_eq_none.mp hb)
    | some k =>
      obtain ⟨c, t, hk, hp⟩ := firstBusy_eq_some hb
      have hh : (s.select k).held = some t := by rw [held_select hk, hp]; rfl
      rw [step_of_no_input hin hb, completeCur_of_held hh] at h
      cases h
      exact .complete k c t s.inputs hk hp (.inl ⟨hin, hin⟩)
  | cons e es =>
    cases hk : s.instances[e.target]? with
    | none => simp [step, hin, handleEvent, State.inst, hk] at h
    | some c =>
      rw [step_of_event hin hk] at h
      cases e with
      | offer k t =>
        simp only [Event.target] at hk h
        simp only [eventCur, offerCur] at h
        split at h
        · rename_i hr
          cases h
          exact .offerInReset k c t es hin hk hr
        · rename_i hr
          split at h
          · rename_i u hp
            have hh : (s.select k).held = some u := by rw [held_select hk, hp]; rfl
            rw [completeCur_of_held hh] at h
            cases h
            exact .complete k c u s.inputs hk hp (.inr (.inr ⟨t, es, hin, rfl⟩))
          · rename_i hp
            split at h
            · rename_i hfit
              cases h
              exact .accept k c t es hin hk (by simpa using hr) hp hfit
            · cases h
      | complete k =>
        simp only [Event.target] at hk h
        simp only [eventCur] at h
        cases hp : c.phase with
        | idle =>
          have hh : ((s.select k).withInputs es).held = none := by
            rw [State.held_withInputs, held_select hk, hp]; rfl
          rw [completeCur_of_not_held hh] at h
          cases h
          exact .nothingToComplete k c es hin hk hp
        | busy t =>
          have hh : ((s.select k).withInputs es).held = some t := by
            rw [State.held_withInputs, held_select hk, hp]; rfl
          rw [completeCur_of_held hh] at h
          cases h
          exact .complete k c t es hk hp (.inr (.inl hin))
      | applyReset k =>
        simp only [eventCur] at h
        cases h
        exact .applyReset k c es hin hk
      | releaseReset k =>
        simp only [eventCur] at h
        cases h
        exact .releaseReset k c es hin hk

end Sys2Proof.Machine
end

