-- ==== Sys2Proof/Tests/Slice0.lean ====
section
/-! SUPPORT. The model's own tests: command words written out from 30_encoding.md, vectors of 95_test_vectors.md, ill-formed
terms that WellFormed refuses, and for each statement with hypotheses a witness that meets them together. -/

open Sys2Proof Sys2Proof.Machine Sys2Proof.Stated

namespace Sys2Proof.Tests

/-! ## Well-formedness: DEPTH has 7 bits (R48) -/

theorem test_wf_refuses_depth_128 : (Instr.pack 128 .lsbFirst .lsbFirst).wf = false := by decide

theorem test_wf_refuses_wide_nwidth : (Instr.nwidth 200).wf = false := by decide

theorem test_wf_admits_depth_127 : (Instr.unpack 127 .msbFirst .lsbFirst).wf = true := by decide

theorem test_asm_wf_refuses_depth_128 : (AsmLine.paired .pack .lsbFirst 128).wf = false := by decide

/-! ## Decoding: words written out bit by bit as `RRRRTbsdddddddoo` (R47), from EN-1 to EN-15 -/

theorem test_decode_pack : decode 0b0000010000110000#16 = .ok (.pack 12 .lsbFirst .msbFirst) := by decide

theorem test_decode_packChk : decode 0b0000111000110000#16 = .ok (.packChk 12 .msbFirst .msbFirst) := by decide

theorem test_decode_unpack : decode 0b0000001000110001#16 = .ok (.unpack 12 .msbFirst .lsbFirst) := by decide

theorem test_decode_nwidth : decode 0b0000000000110010#16 = .ok (.nwidth 12) := by decide

theorem test_decode_all_bits_set : decode 0xFFFF#16 = .error .reservedBitsSet := by decide

theorem test_decode_reserved_op : decode 0x0103#16 = .error .reservedOp := by decide

theorem test_decodeTableWord_nwidth : decodeTableWord 16 0x0102 = some (.nwidth 64) := by decide

theorem test_decodeTableWord_illegal : decodeTableWord 16 0x0831 = none := by decide

/-! ## Assembler text (R57, R58) -/

theorem test_text_pack :
    (disassemble 0x0430#16).text = "PACK 12, LSB, MSB".toList := by decide

theorem test_text_word : (disassemble 0x103C#16).text = ".word 0x103C".toList := by decide

theorem test_text_pseudo : (AsmLine.paired .packChk .msbFirst 127).text = "PACK.CHK.B 127".toList := by decide

theorem test_assemble_unpack :
    asmTransaction (.ordered .unpack 12 .lsbFirst .lsbFirst) [.bytes [0xAB#8, 0xD0#8, 0x0C#8], .count 2] =
      { cmd := 0x0031#16, samples := [], bytes := [0xAB#8, 0xD0#8, 0x0C#8], count := 2 } := by decide

/-! ## Bit order (vectors BO-8 to BO-14) -/

theorem test_stream_lsb : stream [0x5#64] 3 .lsbFirst = [true, false, true] := by decide

theorem test_stream_msb : stream [0x6#64] 3 .msbFirst = [true, true, false] := by decide

theorem test_place_msb : place [true] .msbFirst = [0x80#8] := by decide

theorem test_gather_lsb : gather [0x80#8] .lsbFirst 7 = true := by decide

/-! ## One step of each instruction (vectors of 95_test_vectors.md sections 2.3 to 2.6) -/

/-- One BITS-CORE, busy with `t`, its completion due. -/
def busyWith (t : Transaction) : State :=
  { params := Params.unbounded, instances := [{ phase := .busy t, resetApplied := false, responses := [] }],
    cur := 0, inputs := [.complete 0] }

/-- A transaction of a command word and its operands. -/
def tx (cmd : Cmd) (samples : List Sample) (bytes : List Byte) (count : Nat) : Transaction :=
  { cmd := cmd, samples := samples, bytes := bytes, count := count }

/-- What instance 0 has emitted in the state a step gives. -/
def emittedBy : Host.Outcome State Fault Refusal → Option (List Response)
  | .next s => (s.instances[0]?).map (fun c => c.responses)
  | .fault _ => none
  | .refused _ => none

/-- PK-3. -/
theorem test_step_pack_mixed : emittedBy (step (busyWith (tx 0x0430#16 [0x0AB#64, 0x0CD#64] [] 0))) =
    some [{ status := 0#4, wtag := 1#2, outb := [0xD5#8, 0x0B#8, 0x30#8], outs := [] }] := by decide

/-- PK-27: three samples, pad bits at the low end. -/
theorem test_step_pack_msb_pad : emittedBy (step (busyWith (tx 0x0628#16 [0x3FF#64, 0x001#64, 0x200#64] [] 0))) =
    some [{ status := 0#4, wtag := 1#2, outb := [0xFF#8, 0xC0#8, 0x18#8, 0x00#8], outs := [] }] := by decide

/-- PC-3: one sample out of range fails the whole transaction. -/
theorem test_step_packChk_range : emittedBy (step (busyWith (tx 0x0810#16 [0x3#64, 0x10#64] [] 0))) =
    some [{ status := 3#4, wtag := 0#2, outb := [], outs := [] }] := by decide

/-- PC-4: at depth 64 nothing is out of range. -/
theorem test_step_packChk_64 : emittedBy (step (busyWith (tx 0x0900#16 [0xFFFFFFFFFFFFFFFF#64] [] 0))) =
    some [{ status := 0#4, wtag := 3#2,
            outb := [0xFF#8, 0xFF#8, 0xFF#8, 0xFF#8, 0xFF#8, 0xFF#8, 0xFF#8, 0xFF#8], outs := [] }] := by decide

/-- UP-20: the bytes of PK-1 under the other orders. -/
theorem test_step_unpack_msb : emittedBy (step (busyWith (tx 0x0631#16 [] [0xAB#8, 0xD0#8, 0x0C#8] 2))) =
    some [{ status := 0#4, wtag := 1#2, outb := [], outs := [0xABD#64, 0x00C#64] }] := by decide

/-- UP-11: two bytes where three are needed. -/
theorem test_step_unpack_short : emittedBy (step (busyWith (tx 0x0031#16 [] [0xAB#8, 0xD0#8] 2))) =
    some [{ status := 4#4, wtag := 0#2, outb := [], outs := [] }] := by decide

/-- NW-5. -/
theorem test_step_nwidth_17 : emittedBy (step (busyWith (tx 0x0046#16 [] [] 0))) =
    some [{ status := 0#4, wtag := 2#2, outb := [], outs := [] }] := by decide

/-- NW-10. -/
theorem test_step_nwidth_65 : emittedBy (step (busyWith (tx 0x0106#16 [] [] 0))) =
    some [{ status := 2#4, wtag := 0#2, outb := [], outs := [] }] := by decide

/-- PC-8: IllegalCommand before RangeError. -/
theorem test_step_illegal : emittedBy (step (busyWith (tx 0x8830#16 [0x10#64] [] 0))) =
    some [{ status := 1#4, wtag := 0#2, outb := [], outs := [] }] := by decide

/-- The placed word is what the very next step after reset runs (NW-7). -/
theorem test_withFetchWord_nwidth : emittedBy (step (State.reset.withFetchWord 16 0x0086)) =
    some [{ status := 0#4, wtag := 3#2, outb := [], outs := [] }] := by decide

/-! ## Witnesses: the hypotheses of each statement, met together -/

/-- PK-1's transaction. -/
def pk1 : Transaction := tx 0x0030#16 [0x0AB#64, 0x0CD#64] [] 0

/-- An instance at rest. -/
def atRest : Inst := Inst.reset

/-- An instance busy with `t`. -/
def busy (t : Transaction) : Inst := { phase := .busy t, resetApplied := false, responses := [] }

/-- One BITS-CORE at rest with events to come. -/
def restWith (es : List Event) : State :=
  { params := Params.unbounded, instances := [atRest], cur := 0, inputs := es }

theorem witness_DecodeOfEncode : (Instr.pack 127 .msbFirst .lsbFirst).wf = true := by decide

theorem witness_EncodeOfDecode : decode 0x0E30#16 = .ok (.packChk 12 .msbFirst .msbFirst) := by decide

theorem witness_EncodedWordValues : 127 < 128 ∧ (Instr.nwidth 127).wf = true := by decide

theorem witness_IllegalWordsExactly :
    decode 0x0003#16 = .error .reservedOp ∧ (busyWith (tx 0x0003#16 [] [] 0)).inputs = [.complete 0] ∧
      (busyWith (tx 0x0003#16 [] [] 0)).instances[0]? = some (busy (tx 0x0003#16 [] [] 0)) := by decide

/-- The second outcome of IllegalWordsExactly: legal words with depth 0 and depth 65. -/
theorem witness_IllegalWordsExactly_depth :
    decode 0x0000#16 = .ok (.pack 0 .lsbFirst .lsbFirst) ∧ decode 0x0106#16 = .ok (.nwidth 65) ∧
      (busyWith (tx 0x0000#16 [] [] 0)).instances[0]? = some (busy (tx 0x0000#16 [] [] 0)) := by decide

theorem witness_PseudoInstructionsExpand : 127 < 128 := by decide

theorem witness_StreamBits : 1 < [5#64, 3#64].length ∧ 2 < 3 := by decide

theorem witness_PlacedBits_data_and_pad :
    let t := [true, true, false, true, false, false, true, false, true]
    (1 < (place t .msbFirst).length ∧ 0 < 8 ∧ 8 * 1 + 0 < t.length) ∧
      (1 < (place t .msbFirst).length ∧ 7 < 8 ∧ ¬ 8 * 1 + 7 < t.length) := by decide

theorem witness_GatherOfPlace : 7 < 8 ∧ 11 < 12 ∧ 2 < [true, false, true].length := by decide

theorem witness_SampleAxisFlipReversesSamples :
    3 ≤ 64 ∧ [0b011#64].length = [0b110#64].length ∧
      ∀ i < 1, ∀ j < 64, ([0b011#64].getD i 0#64).getLsbD j =
        (decide (j < 3) && ([0b110#64].getD i 0#64).getLsbD (3 - 1 - j)) := by decide +kernel

theorem witness_WholeByteDepths : (1 ≤ 1 ∧ 1 ≤ 8 ∧ 0 < 1) ∧ (1 ≤ 8 ∧ 8 ≤ 8 ∧ 7 < 8) ∧ 0 < [0x1234#64].length := by decide

theorem witness_PackedLengthAndPadBits_pad :
    ∃ r, packResult 12 .msbFirst .msbFirst [0xFFF#64] = .ok r ∧ [0xFFF#64].length * 12 % 8 ≠ 0 ∧
      [0xFFF#64].length * 12 ≤ 15 ∧ 15 < 8 * r.outb.length := ⟨_, rfl, by decide⟩

theorem witness_PackedLengthAndPadBits_no_pad :
    ∃ r, packChkResult 12 .lsbFirst .lsbFirst [0x0AB#64, 0x0CD#64] = .ok r ∧
      [0x0AB#64, 0x0CD#64].length * 12 % 8 = 0 := ⟨_, rfl, by decide⟩

theorem witness_PackSplitsAtByteBoundary : [0x0AB#64, 0x0CD#64].length * 12 % 8 = 0 := by decide

theorem witness_PackTruncates :
    [0xF#64].length = [0x1F#64].length ∧
      ∀ i < [0x1F#64].length, ([0xF#64].getD i 0#64).toNat = ([0x1F#64].getD i 0#64).toNat % 2 ^ 4 := by decide +kernel

theorem witness_UnpackedValueBits :
    64 ≤ 64 ∧ 63 < 64 ∧ 0 * 64 + 63 < 8 * [1#8, 2#8, 3#8, 4#8, 5#8, 6#8, 7#8, 8#8].length := by decide

/-- UP-5's bytes and a buffer with other pad bits and a surplus byte. -/
theorem witness_UnpackIgnoresPadAndSurplus :
    (1 * 12 + 7) / 8 ≤ [0xFF#8, 0xFF#8].length ∧ (1 * 12 + 7) / 8 ≤ [0xFF#8, 0x0F#8, 0x55#8].length ∧
      ∀ k < 1 * 12, gather [0xFF#8, 0xFF#8] .lsbFirst k = gather [0xFF#8, 0x0F#8, 0x55#8] .lsbFirst k := by decide

theorem witness_UnpackOfPackRestoresSamples :
    1 ≤ 12 ∧ 12 ≤ 64 ∧ pk1.cmd = encode (.pack 12 .lsbFirst .lsbFirst) ∧
      0x0830#16 = encode (.packChk 12 .lsbFirst .lsbFirst) ∧ 0x0031#16 = encode (.unpack 12 .lsbFirst .lsbFirst) ∧
      [0xAB#8, 0xD0#8, 0x0C#8] = (respond pk1).outb ∧ 2 = pk1.samples.length := by decide

theorem witness_UnpackOfPackRestoresSamples_in_range : ∀ v ∈ pk1.samples, v.toNat < 2 ^ 12 := by
  simp [pk1, tx]

theorem witness_PackOfUnpackRestoresBytes :
    (∃ r, unpackResult 12 .lsbFirst .lsbFirst [0xFF#8, 0x0F#8] 1 = .ok r) ∧
      [0xFF#8, 0x0F#8].length = (1 * 12 + 7) / 8 ∧
      ∀ k < 16, 1 * 12 ≤ k → gather [0xFF#8, 0x0F#8] .lsbFirst k = false := ⟨⟨_, rfl⟩, by decide⟩

theorem witness_UnpackedWordsInRange :
    ∃ r, unpackResult 64 .msbFirst .msbFirst [0xEF#8, 0xCD#8, 0xAB#8, 0x89#8, 0x67#8, 0x45#8, 0x23#8, 0x01#8] 1 = .ok r :=
  ⟨_, rfl⟩

/-- UP-19, UP-21 and UP-22: fewer samples, a sample from the pad bits, and one too many. -/
theorem witness_CountMismatchExactly :
    1 ≤ 4 ∧ 4 ≤ 64 ∧ 0 < [0x3#64].length ∧
      ([0x3#64].length < 2 ∧ (2 * 4 + 7) / 8 ≤ (packBytes [0x3#64] 4 .lsbFirst .lsbFirst ++ []).length) ∧
      (packBytes [0x3#64] 4 .lsbFirst .lsbFirst ++ []).length < (3 * 4 + 7) / 8 := by decide

theorem witness_PackCompletes : (busyWith pk1).held = some pk1 ∧ 1 ≤ 1 ∧ 1 ≤ 64 ∧ 64 ≤ 64 := by decide

theorem witness_PackChkCompletesOrRangeError_in_range :
    (busyWith (tx 0x0810#16 [0xF#64] [] 0)).held = some (tx 0x0810#16 [0xF#64] [] 0) ∧
      ∀ v ∈ [0xF#64], v.toNat < 2 ^ 4 := ⟨by decide, by simp⟩

theorem witness_PackChkCompletesOrRangeError_out_of_range :
    (busyWith (tx 0x0810#16 [0x10#64] [] 0)).held = some (tx 0x0810#16 [0x10#64] [] 0) ∧
      ∃ v ∈ [0x10#64], 2 ^ 4 ≤ v.toNat := ⟨by decide, by simp⟩

theorem witness_UnpackCompletesOrLengthError_enough :
    (busyWith (tx 0x0031#16 [] [0#8, 0#8, 0#8] 2)).held = some (tx 0x0031#16 [] [0#8, 0#8, 0#8] 2) ∧
      (2 * 12 + 7) / 8 ≤ [0#8, 0#8, 0#8].length := by decide

theorem witness_UnpackCompletesOrLengthError_short :
    (busyWith (tx 0x0031#16 [] [0#8, 0#8] 2)).held = some (tx 0x0031#16 [] [0#8, 0#8] 2) ∧
      [0#8, 0#8].length < (2 * 12 + 7) / 8 := by decide

theorem witness_NwidthCompletes : (busyWith (tx 0x0032#16 [] [] 0)).held = some (tx 0x0032#16 [] [] 0) := by decide

theorem witness_DomainErrorOutsideDepths :
    (busyWith pk1).held = some pk1 ∧ (Instr.nwidth 0).depth = 0 ∧ 65 ≤ (Instr.packChk 65 .lsbFirst .lsbFirst).depth := by
  decide

theorem witness_ExecNeedsHeldTransaction : (busyWith pk1).held = some pk1 ∧ State.reset.held = none := by decide

theorem witness_InstructionFrame : ∃ s', exec (.nwidth 12) (busyWith pk1) = .next s' := ⟨_, rfl⟩

theorem witness_NativeWidthLaws : 1 ≤ 4 ∧ 4 ≤ 5 ∧ 5 ≤ 64 := by decide

/-- For IllegalWordsExactly's second part, StepRunsDecodedInstruction, CompletionEmitsExec and
ErrorResponseCarriesNothing: an instance busy, its completion due. -/
theorem witness_busy_step :
    (busyWith pk1).inputs = [.complete 0] ∧ (busyWith pk1).instances[0]? = some (busy pk1) ∧
      (busy pk1).phase = .busy pk1 ∧ decode pk1.cmd = .ok (.pack 12 .lsbFirst .lsbFirst) := by decide

theorem witness_ErrorResponseCarriesNothing :
    (respond (tx 0x0000#16 [] [] 0)).status ≠ 0#4 ∧ ∃ s', step (busyWith (tx 0x0000#16 [] [] 0)) = .next s' :=
  ⟨by decide, _, rfl⟩

theorem witness_SuccessResponseContent :
    (respond pk1).status = 0#4 ∧ (respond (tx 0x0005#16 [] [0x8D#8, 0x01#8] 9)).status = 0#4 ∧
      (respond (tx 0x0102#16 [] [] 0)).status = 0#4 := by decide

theorem witness_UnreadOperandsIgnored :
    pk1.cmd = (tx 0x0030#16 [0x0AB#64, 0x0CD#64] [0x77#8] 5).cmd ∧
      pk1.samples = (tx 0x0030#16 [0x0AB#64, 0x0CD#64] [0x77#8] 5).samples ∧ pk1.cmd.toNat % 4 ≠ 1 := by decide

theorem witness_PlacedWordRunsNext :
    State.reset.cur < State.reset.instances.length ∧
      decodeTableWord 16 0x0030 = some (.pack 12 .lsbFirst .lsbFirst) := by decide

theorem witness_AcceptOnlyWhenIdle :
    (restWith [.offer 0 pk1]).instances[0]? = some atRest ∧ atRest.resetApplied = false ∧ atRest.phase = .idle ∧
      withinCapacity (restWith [.offer 0 pk1]).params pk1 = true ∧ (busy pk1).resetApplied = false := by decide

theorem witness_ResetAbortsWithoutResponse :
    (restWith [.applyReset 0]).instances[0]? = some atRest ∧ atRest.applyReset.resetApplied = true ∧
      atRest.applyReset.phase = .idle ∧ withinCapacity Params.unbounded pk1 = true := by decide

/-- RS-2 and RS-3: reset while PK-1's transaction is in progress, which is then offered again. -/
theorem witness_ResetAbortsWithoutResponse_busy :
    let s := { busyWith pk1 with inputs := [.applyReset 0, .releaseReset 0, .offer 0 pk1, .complete 0] }
    s.instances[0]? = some (busy pk1) ∧ withinCapacity s.params pk1 = true := by decide

/-- For StepRunsDecodedInstruction's second part: an instance busy with an illegal word, its completion due. -/
theorem witness_busy_step_illegal :
    (busyWith (tx 0x0003#16 [] [] 0)).inputs = [.complete 0] ∧
      (busyWith (tx 0x0003#16 [] [] 0)).instances[0]? = some (busy (tx 0x0003#16 [] [] 0)) ∧
      decode 0x0003#16 = .error .reservedOp := by decide

/-- For PhaseChangesOnlyByThreeSteps and StepKeepsConfiguration: a step that goes on. -/
theorem witness_step_goes_on : ∃ s', step (restWith [.offer 0 pk1]) = .next s' := ⟨_, rfl⟩

theorem witness_QuietMachineRests : State.reset.inputs = [] ∧ ∀ c ∈ State.reset.instances, c.phase = .idle := by decide

theorem witness_StepKeepsInv : State.reset.Inv ∧ step State.reset = .next State.reset :=
  ⟨{ some_instance := by decide
     instances_length := by decide
     cur_lt := by decide
     each := fun c hc => by
      obtain rfl : c = Inst.reset := List.eq_of_mem_replicate hc
      exact ⟨fun h => (nomatch h), fun t h => (nomatch h), fun r hr => (nomatch hr), fun r hr => (nomatch hr)⟩ }, rfl⟩

theorem witness_ResetStateMeetsInv : 1 ≤ Params.unbounded.numInstances := by decide

theorem witness_StepTouchesOneInstance :
    ∃ s', step (restWith [.complete 0]) = .next s' ∧ 1 ≠ s'.cur := ⟨_, rfl, by decide⟩

/-- Two platforms that differ in the other instance only. -/
theorem witness_InstancesCannotObserveEachOther :
    let s1 : State := { params := Params.unbounded, instances := [atRest, atRest], cur := 0, inputs := [.offer 0 pk1] }
    let s2 : State := { params := Params.unbounded, instances := [atRest, busy pk1], cur := 0, inputs := [.offer 0 pk1] }
    s1.instances[0]? = s2.instances[0]? ∧ s1.instances ≠ s2.instances ∧
      (∃ s', step s1 = .next s') ∧ ∃ s', step s2 = .next s' :=
  ⟨rfl, by decide, ⟨_, rfl⟩, _, rfl⟩

theorem witness_ResponseDependsOnTransactionAlone :
    let s2 : State := { busyWith pk1 with cur := 7, inputs := [.complete 0, .applyReset 0] }
    s2.instances[0]? = some (busy pk1) ∧ (∃ s', step (busyWith pk1) = .next s') ∧ ∃ s', step s2 = .next s' :=
  ⟨rfl, ⟨_, rfl⟩, _, rfl⟩

theorem witness_CapacityInNumbers :
    let p : Params := { maxSamples := some 4, maxBytes := some 8, countBits := some 3, numInstances := 1 }
    p.maxSamples = some 4 ∧ p.maxBytes = some 8 ∧ p.countBits = some 3 ∧ withinCapacity p pk1 = true ∧
      withinCapacity p (tx 0x0030#16 [] [] 8) = false ∧ pk1.cmd = encode (.pack 12 .lsbFirst .lsbFirst) := by decide

/-- Program P1 of 95_test_vectors.md. -/
theorem witness_ProgramRespondsInOrder :
    let ts := [pk1, tx 0x0031#16 [] [0xAB#8, 0xD0#8, 0x0C#8] 2]
    let s := restWith (ts.flatMap (fun t => [Event.offer 0 t, Event.complete 0]))
    s.instances[0]? = some atRest ∧ atRest.phase = .idle ∧ atRest.resetApplied = false ∧
      ∀ t ∈ ts, withinCapacity s.params t = true := by decide

theorem witness_MachineBecomesQuiet : ∀ e ∈ (restWith [.offer 0 pk1]).inputs, e.Acceptable (restWith [.offer 0 pk1]) := by
  intro e he
  obtain rfl : e = .offer 0 pk1 := by simpa [restWith] using he
  exact ⟨by decide, fun k t h => by cases h; decide⟩

theorem witness_AcceptedTransactionCompletes :
    (busyWith pk1).instances[0]? = some (busy pk1) ∧ Event.applyReset 0 ∉ (busyWith pk1).inputs ∧
      ∀ e ∈ (busyWith pk1).inputs, e.Acceptable (busyWith pk1) := by
  refine ⟨by decide, by decide, fun e he => ?_⟩
  obtain rfl : e = .complete 0 := by simpa [busyWith] using he
  exact ⟨by decide, fun k t h => nomatch h⟩

end Sys2Proof.Tests
end

section
/-! Successful responses (30_encoding.md R55, R56; 20_memory.md R38): R55's dispatch through the decoder, and what each
computation answers when it succeeds. -/

open Sys2Proof.Stated

namespace Sys2Proof

/-- The decoder turns away only words that R52's formula holds of. -/
theorem illegal_of_decode_error {c : Cmd} {e : IllegalWord} (h : decode c = .error e) : illegal c = true := by
  have hlt := opField_lt c
  by_cases hrsv : rsvField c = 0
  · obtain hop | hop | hop | hop : opField c = 0 ∨ opField c = 1 ∨ opField c = 2 ∨ opField c = 3 := by omega
    · cases hst : strictBit c <;> simp [decode, hrsv, hop, hst] at h
    · cases hst : strictBit c
      · simp [decode, hrsv, hop, hst] at h
      · simp [illegal, hop, hst]
    · cases hset : strictBit c || bordBit c || sordBit c
      · simp only [decode, hrsv, hop, hset] at h
        cases h
      · simp [illegal, hop, hset]
    · simp [illegal, hop]
  · simp [illegal, hrsv]

/-- The decoder gives an instruction only to words that R52's formula fails of. -/
theorem illegal_eq_false_of_decode_ok {c : Cmd} {i : Instr} (h : decode c = .ok i) : illegal c = false := by
  obtain ⟨hrsv, ⟨hop, -⟩ | ⟨hop, -⟩ | ⟨hop, hst, -⟩ | ⟨hop, hst, hbo, hso, -⟩⟩ := decode_eq_ok h <;>
    simp [illegal, *]

end Sys2Proof

namespace Sys2Proof.Machine

/-! ### R55's dispatch agrees with the decoder -/

theorem execResult_of_decode_error {t : Transaction} {e : IllegalWord} (h : decode t.cmd = .error e) :
    execResult t = .error .illegalCommand := by
  simp [execResult, illegal_of_decode_error h]

theorem execResult_of_decode_ok {t : Transaction} {i : Instr} (h : decode t.cmd = .ok i) :
    execResult t = instrResult i t := by
  have hlegal := illegal_eq_false_of_decode_ok h
  obtain ⟨-, ⟨hop, hst, rfl⟩ | ⟨hop, hst, rfl⟩ | ⟨hop, hst, rfl⟩ | ⟨hop, -, -, -, rfl⟩⟩ := decode_eq_ok h <;>
    simp [execResult, instrResult, *]

/-- The pseudocode's response and the one the machine emits through its decoder are the same. -/
theorem respond_eq_emitted (t : Transaction) : respond t = emitted t := by
  unfold respond emitted
  cases h : decode t.cmd with
  | error e => rw [execResult_of_decode_error h]; rfl
  | ok i => rw [execResult_of_decode_ok h]

/-! ### A success is never an error response -/

theorem ErrorKind.code_ne_zero (e : ErrorKind) : e.code ≠ 0#4 := by cases e <;> decide

/-- A STATUS of 0 comes only from a computation that raised nothing (R100). -/
theorem eq_ok_of_status_eq_zero {x : Except ErrorKind Response} (h : (Response.ofResult x).status = 0#4) :
    x = .ok (Response.ofResult x) := by
  cases x with
  | error e => exact absurd h e.code_ne_zero
  | ok r => rfl

/-! ### What each computation answers when it succeeds -/

theorem packResult_eq_ok {d : Nat} {so bo : BitOrder} {s : List Sample} {r : Response} :
    packResult d so bo s = .ok r ↔
      depthInvalid d = false ∧ r = Response.ok (nativeWidth d) (packBytes s d so bo) [] := by
  cases hd : depthInvalid d <;> simp [packResult, hd, eq_comm]

theorem packChkResult_eq_ok {d : Nat} {so bo : BitOrder} {s : List Sample} {r : Response} :
    packChkResult d so bo s = .ok r ↔
      depthInvalid d = false ∧ allInRange d s = true ∧
        r = Response.ok (nativeWidth d) (packBytes s d so bo) [] := by
  cases hd : depthInvalid d <;> cases hr : allInRange d s <;> simp [packChkResult, hd, hr, eq_comm]

theorem unpackResult_eq_ok {d : Nat} {so bo : BitOrder} {b : List Byte} {count : Nat} {r : Response} :
    unpackResult d so bo b count = .ok r ↔
      depthInvalid d = false ∧ requiredLength count d ≤ b.length ∧
        r = Response.ok (nativeWidth d) [] (unpackSamples b d so bo count) := by
  by_cases hl : b.length < requiredLength count d
  · cases hd : depthInvalid d <;> simp [unpackResult, hd, hl, Nat.not_le.mpr hl]
  · cases hd : depthInvalid d <;> simp [unpackResult, hd, hl, Nat.not_lt.mp hl, eq_comm]

theorem nwidthResult_eq_ok {d : Nat} {r : Response} :
    nwidthResult d = .ok r ↔ depthInvalid d = false ∧ r = Response.ok (nativeWidth d) [] [] := by
  cases hd : depthInvalid d <;> simp [nwidthResult, hd, eq_comm]

/-! ### The sizes of the outputs -/

@[simp] theorem length_packBytes (s : List Sample) (d : Nat) (so bo : BitOrder) :
    (packBytes s d so bo).length = ceil8 (s.length * d) := by
  simp [packBytes]

@[simp] theorem length_unpackSamples (b : List Byte) (d : Nat) (so bo : BitOrder) (count : Nat) :
    (unpackSamples b d so bo count).length = count := by
  simp [unpackSamples]

/-- The width selector's tag is the table of R95. -/
theorem tag_nativeWidth (d : Nat) : (nativeWidth d).tag = tagOf d := by
  unfold nativeWidth tagOf
  split_ifs <;> rfl

/-- Settles O38: a STATUS of 0 means that the command decoded and its computation succeeded, and each of the four
computations then answers with the native width and the output of its own kind. -/
theorem successResponseContent : Obligations.SuccessResponseContent := by
  intro t hstatus
  have hok : execResult t = .ok (respond t) := eq_ok_of_status_eq_zero hstatus
  cases hdec : decode t.cmd with
  | error e =>
    rw [execResult_of_decode_error hdec] at hok
    cases hok
  | ok i =>
    rw [execResult_of_decode_ok hdec] at hok
    rw [← opField_eq, ← depthField_eq, ← tag_nativeWidth]
    obtain ⟨-, ⟨hop, -, rfl⟩ | ⟨hop, -, rfl⟩ | ⟨hop, -, rfl⟩ | ⟨hop, -, -, -, rfl⟩⟩ := decode_eq_ok hdec
    · obtain ⟨-, hr⟩ := packResult_eq_ok.mp hok
      simp [hr, hop, Response.ok, ceil8]
    · obtain ⟨-, -, hr⟩ := packChkResult_eq_ok.mp hok
      simp [hr, hop, Response.ok, ceil8]
    · obtain ⟨-, -, hr⟩ := unpackResult_eq_ok.mp hok
      simp [hr, hop, Response.ok]
    · obtain ⟨-, hr⟩ := nwidthResult_eq_ok.mp hok
      simp [hr, hop, Response.ok]

end Sys2Proof.Machine
end

section
/-! Command words (30_encoding.md R49, R52, R53, R58): the value of every word, the words that do not decode and how they
complete, the number of words of each kind, and the pseudo-instructions. -/

open Sys2Proof.Stated

namespace Sys2Proof

/-! ### The words of instructions -/

/-- The fields of the word `encode` gives, for every well-formed instruction. -/
theorem encode_fields (i : Instr) : Laws.EncodedFields.Statement i := by
  cases i with
  | pack d so bo => exact Laws.EncodedFields.pack d so bo
  | packChk d so bo => exact Laws.EncodedFields.packChk d so bo
  | unpack d so bo => exact Laws.EncodedFields.unpack d so bo
  | nwidth d => exact Laws.EncodedFields.nwidth d

theorem rsvField_encode {i : Instr} (hi : i.wf = true) : rsvField (encode i) = 0 := by
  obtain ⟨-, -, -, -, -, hrsv⟩ := encode_fields i hi
  exact hrsv

/-- The sum of R49 fits in the 16 bits of the word. -/
theorem toNat_encode {i : Instr} (hi : i.wf = true) :
    (encode i).toNat =
      i.op + 4 * i.depth + 512 * i.sord.toNat + 1024 * i.bord.toNat + 2048 * i.strict.toNat := by
  obtain ⟨hop, hd, hso, hbo, hst, hrsv⟩ := encode_fields i hi
  rw [toNat_eq_fields, hop, hd, hso, hbo, hst, hrsv, Nat.mul_zero, Nat.add_zero]

/-- The decoder reads back the instruction a word was made from. -/
theorem decode_encode {i : Instr} (hi : i.wf = true) : decode (encode i) = .ok i := by
  obtain ⟨hop, hd, hso, hbo, hst, hrsv⟩ := encode_fields i hi
  cases i <;>
    simp [decode, hop, hd, hso, hbo, hst, hrsv, Instr.op, Instr.depth, Instr.sord, Instr.bord, Instr.strict]

/-- Settles O3: the word's value is the sum of its fields, and the listed encodings are that sum for fixed operands. -/
theorem encodedWordValues : Obligations.EncodedWordValues := by
  refine ⟨fun d so bo hd => ?_, fun i hi => rsvField_encode hi, by decide⟩
  have hwf : ∀ i : Instr, i.depth = d → i.wf = true := fun i hi => decide_eq_true (hi ▸ hd)
  exact ⟨toNat_encode (hwf (.pack d so bo) rfl), toNat_encode (hwf (.packChk d so bo) rfl),
    toNat_encode (hwf (.unpack d so bo) rfl), toNat_encode (hwf (.nwidth d) rfl)⟩

/-- Settles O9: a pseudo-instruction assembles to the word of its expansion, which the decoder reads back. -/
theorem pseudoInstructionsExpand : Obligations.PseudoInstructionsExpand := by
  intro d hd
  have hdec : ∀ m o, decode (AsmLine.paired m o d).assemble = .ok (m.instr d o o) := fun m o =>
    decode_encode (by cases m <;> exact decide_eq_true hd)
  exact ⟨fun _ _ => ⟨rfl, rfl⟩, hdec _ _, hdec _ _, hdec _ _, hdec _ _, hdec _ _, hdec _ _⟩

/-! ### The words that do not decode -/

theorem decode_error_iff_illegal {c : Cmd} : (∃ e, decode c = .error e) ↔ illegal c = true := by
  refine ⟨fun ⟨e, he⟩ => illegal_of_decode_error he, fun h => ?_⟩
  cases hdec : decode c with
  | error e => exact ⟨e, rfl⟩
  | ok i => rw [illegal_eq_false_of_decode_ok hdec] at h; cases h

/-- R52's formula on the number the word is. -/
theorem illegal_iff (c : Cmd) :
    illegal c = true ↔
      (c.toNat / 4096 ≠ 0 ∨ c.toNat % 4 = 3 ∨ (c.toNat % 4 = 1 ∧ c.toNat / 2048 % 2 = 1) ∨
        (c.toNat % 4 = 2 ∧ c.toNat / 512 % 8 ≠ 0)) := by
  simp only [illegal, rsvField_eq, opField_eq, strictBit_eq, bordBit_eq, sordBit_eq, Bool.or_eq_true,
    Bool.and_eq_true, decide_eq_true_eq]
  omega

/-! ### How many words of each kind

The words of a row of the opcode table are the numbers with its OP in one interval that begins at a multiple of 4: every
fourth number there, one for each setting of the fields above OP that the row leaves free (R51, R53). -/

/-- One of the `m` numbers with remainder `r` modulo 4 in the interval of `4 * m` numbers from `b`. -/
abbrev InRow (b m r w : Nat) : Prop := b ≤ w ∧ w < b + 4 * m ∧ w % 4 = r

/-- The kind of a word by the number it is. -/
theorem kindOf_cases (c : Cmd) :
    (kindOf c = .pack ∧ InRow 0 512 0 c.toNat) ∨ (kindOf c = .packChk ∧ InRow 2048 512 0 c.toNat) ∨
      (kindOf c = .unpack ∧ InRow 0 512 1 c.toNat) ∨ (kindOf c = .nwidth ∧ InRow 0 128 2 c.toNat) ∨
      (kindOf c = .illegal ∧
        (c.toNat / 4096 ≠ 0 ∨ c.toNat % 4 = 3 ∨ (c.toNat % 4 = 1 ∧ c.toNat / 2048 % 2 = 1) ∨
          (c.toNat % 4 = 2 ∧ c.toNat / 512 % 8 ≠ 0))) := by
  cases hdec : decode c with
  | error e =>
    have hill := (illegal_iff c).mp (illegal_of_decode_error hdec)
    exact .inr (.inr (.inr (.inr ⟨by simp [kindOf, hdec], hill⟩)))
  | ok i =>
    obtain ⟨hrsv, hrow⟩ := decode_eq_ok hdec
    simp only [rsvField_eq, opField_eq, strictBit_eq, bordBit_eq, sordBit_eq, decide_eq_true_eq,
      decide_eq_false_iff_not] at hrsv hrow
    obtain ⟨hop, hst, rfl⟩ | ⟨hop, hst, rfl⟩ | ⟨hop, hst, rfl⟩ | ⟨hop, hst, hbo, hso, rfl⟩ := hrow
    · exact .inl ⟨by simp [kindOf, hdec], by omega⟩
    · exact .inr (.inl ⟨by simp [kindOf, hdec], by omega⟩)
    · exact .inr (.inr (.inl ⟨by simp [kindOf, hdec], by omega⟩))
    · exact .inr (.inr (.inr (.inl ⟨by simp [kindOf, hdec], by omega⟩)))

/-- The row of each kind: the cases of `kindOf_cases` exclude each other. -/
theorem kindOf_eq_iff (c : Cmd) :
    (kindOf c = .pack ↔ InRow 0 512 0 c.toNat) ∧ (kindOf c = .packChk ↔ InRow 2048 512 0 c.toNat) ∧
      (kindOf c = .unpack ↔ InRow 0 512 1 c.toNat) ∧ (kindOf c = .nwidth ↔ InRow 0 128 2 c.toNat) := by
  obtain ⟨h, hc⟩ | ⟨h, hc⟩ | ⟨h, hc⟩ | ⟨h, hc⟩ | ⟨h, hc⟩ := kindOf_cases c <;> simp [h] <;> omega

theorem countP_range_inRow {n b m r : Nat} (hb : b % 4 = 0) (hr : r < 4) (hn : b + 4 * m ≤ n) :
    (List.range n).countP (fun w => decide (InRow b m r w)) = m := by
  have hcard : ((Finset.range n).filter (InRow b m r)).card = (Finset.range m).card := by
    refine Finset.card_nbij' (fun w => (w - b) / 4) (fun j => b + 4 * j + r) ?_ ?_ ?_ ?_ <;>
      intro w hw <;> simp at hw ⊢ <;> omega
  rw [List.countP_eq_length_filter]
  exact hcard.trans (Finset.card_range m)

theorem countP_kindOf_of_inRow {k : Kind} {b m r : Nat} (hb : b % 4 = 0) (hr : r < 4) (hn : b + 4 * m ≤ 65536)
    (hk : ∀ c, kindOf c = k ↔ InRow b m r c.toNat) :
    allWords.countP (fun c => kindOf c == k) = m := by
  rw [allWords, List.countP_map]
  refine Eq.trans (List.countP_congr fun w hw => ?_) (countP_range_inRow hb hr hn)
  have hlt : w < 65536 := List.mem_range.mp hw
  simp [hk, Nat.mod_eq_of_lt hlt]

/-- Every legal word is of one of the four kinds. -/
theorem countP_legal (l : List Cmd) :
    l.countP (fun c => kindOf c != .illegal) =
      l.countP (fun c => kindOf c == .pack) + l.countP (fun c => kindOf c == .packChk) +
        l.countP (fun c => kindOf c == .unpack) + l.countP (fun c => kindOf c == .nwidth) := by
  induction l with
  | nil => rfl
  | cons c l ih => cases hk : kindOf c <;> simp [ih, hk] <;> omega

/-- Every word is illegal or legal. -/
theorem length_eq_countP_illegal_add_legal (l : List Cmd) :
    l.length = l.countP (fun c => kindOf c == .illegal) + l.countP (fun c => kindOf c != .illegal) := by
  simpa [bne, beq_eq_decide] using List.length_eq_countP_add_countP (fun c => kindOf c == .illegal)

/-- Settles O6: each row's words are counted in their interval; the legal words are theirs together, and the illegal words
are the rest of the 65536. -/
theorem legalWordCounts : Obligations.LegalWordCounts := by
  have hrows := kindOf_eq_iff
  simp only [forall_and] at hrows
  obtain ⟨hpack, hchk, hunpack, hnwidth⟩ := hrows
  replace hpack := countP_kindOf_of_inRow (by decide) (by decide) (by decide) hpack
  replace hchk := countP_kindOf_of_inRow (by decide) (by decide) (by decide) hchk
  replace hunpack := countP_kindOf_of_inRow (by decide) (by decide) (by decide) hunpack
  replace hnwidth := countP_kindOf_of_inRow (by decide) (by decide) (by decide) hnwidth
  have hlegal : allWords.countP (fun c => kindOf c != .illegal) = 1664 := by
    rw [countP_legal, hpack, hchk, hunpack, hnwidth]
  have hsplit := length_eq_countP_illegal_add_legal allWords
  have hlen : allWords.length = 65536 := by simp [allWords]
  refine ⟨hpack, hchk, hunpack, hnwidth, hlegal, ?_⟩
  rw [hlen, hlegal] at hsplit
  omega

end Sys2Proof

namespace Sys2Proof.Machine

/-! ### Completing a busy instance -/

theorem depthInvalid_iff {d : Nat} : depthInvalid d = true ↔ d = 0 ∨ 65 ≤ d := by
  simp only [depthInvalid, Bool.or_eq_true, decide_eq_true_eq]
  omega

/-- Every instruction checks its depth before anything else (R102). -/
theorem instrResult_of_depthInvalid {i : Instr} (h : depthInvalid i.depth = true) (t : Transaction) :
    instrResult i t = .error .domainError := by
  cases i <;> exact if_pos h

/-- Emitting a response on instance `k`, which holds `x`, with the events `es` left, changes that instance alone. -/
theorem emit_eq_withInst {s : State} {k : Nat} {x : Inst} (hk : s.instances[k]? = some x) (es : List Event)
    (r : Response) : ((s.select k).withInputs es).emit r = withInst s k (x.complete r) es := by
  have hmod : s.instances.modify k (fun c => c.complete r) = s.instances.set k (x.complete r) := by
    rw [List.modify_eq_set_getElem?, hk]
    rfl
  exact congrArg (State.mk s.params · k es) hmod

/-- A completion due on a busy instance ends its transaction with the response the machine emits for it. -/
theorem step_complete_busy {s : State} {k : Nat} {x : Inst} {t : Transaction} {es : List Event}
    (hin : s.inputs = .complete k :: es) (hk : s.instances[k]? = some x) (hp : x.phase = .busy t) :
    step s = .next (withInst s k (x.complete (emitted t)) es) := by
  have hheld : ((s.select k).withInputs es).held = some t := by
    rw [State.held_withInputs, held_select hk, hp]
    rfl
  rw [step_of_event hin hk, ← emit_eq_withInst hk]
  exact completeCur_of_held hheld

theorem emitted_of_decode_error {t : Transaction} (h : ∃ e, decode t.cmd = .error e) :
    emitted t = errorRsp 1#4 := by
  obtain ⟨e, he⟩ := h
  simp only [emitted, he]
  rfl

theorem emitted_of_depth_out_of_range {t : Transaction} {i : Instr} (h : decode t.cmd = .ok i)
    (hd : i.depth = 0 ∨ 65 ≤ i.depth) : emitted t = errorRsp 2#4 := by
  simp only [emitted, h, instrResult_of_depthInvalid (depthInvalid_iff.mpr hd)]
  rfl

/-- Settles O5: the decoder's errors are R52's formula, and completing emits the error response of the word's kind. -/
theorem illegalWordsExactly : Obligations.IllegalWordsExactly := by
  refine fun c => ⟨decode_error_iff_illegal.trans (illegal_iff c), fun s k x t es hin hk hp hc => ?_⟩
  subst hc
  rw [step_complete_busy hin hk hp]
  exact ⟨fun he => by rw [emitted_of_decode_error he]; rfl,
    fun i hi hd => by rw [emitted_of_depth_out_of_range hi hd]; rfl⟩

end Sys2Proof.Machine
end

section
/-! The bit order (40_bit_order.md): the bit at every position of the stream and of its buffer, both buffers read as
integers, and what turning an order over does. -/

namespace Sys2Proof.Machine

/-! ### Every bit of the stream and of the placed bytes

The bits are read with 0 past the end, so that a statement about a position has no bound to carry. -/

/-- R62's selection is R61's at the width of a byte. -/
theorem byteBitPos_eq_sampleBitIndex (bo : BitOrder) (r : Nat) : byteBitPos bo r = sampleBitIndex bo 8 r := by
  cases bo <;> rfl

/-- SORD's selection as the statements write it out. -/
theorem sampleBitIndex_eq_ite (so : BitOrder) (d j : Nat) :
    sampleBitIndex so d j = if so = .lsbFirst then j else d - 1 - j := by
  cases so <;> rfl

theorem getD_sampleSegment (d : Nat) (so : BitOrder) (v : Sample) {j : Nat} (hj : j < d) :
    (sampleSegment d so v).getD j false = v.getLsbD (sampleBitIndex so d j) := by
  simp [sampleSegment, hj]

theorem getD_stream (s : List Sample) (d : Nat) (so : BitOrder) (i : Nat) {j : Nat} (hj : j < d) :
    (stream s d so).getD (i * d + j) false = (s.getD i 0#64).getLsbD (sampleBitIndex so d j) := by
  induction s generalizing i with
  | nil => simp
  | cons v s ih =>
    rw [stream_cons]
    cases i with
    | zero =>
      rw [List.getD_append _ _ _ _ (by simpa using hj), Nat.zero_mul, Nat.zero_add, getD_sampleSegment d so v hj]
      rfl
    | succ i =>
      have hk : (i + 1) * d + j - d = i * d + j := by rw [Nat.succ_mul]; omega
      rw [List.getD_append_right _ _ _ _ (by rw [length_sampleSegment, Nat.succ_mul]; omega), length_sampleSegment, hk,
        ih]
      rfl

/-- The stream's positions are those of its samples' bits (R63). -/
theorem mul_add_lt_length_stream {s : List Sample} {d i j : Nat} (so : BitOrder) (hi : i < s.length) (hj : j < d) :
    i * d + j < (stream s d so).length := by
  have hle : (i + 1) * d ≤ s.length * d := Nat.mul_le_mul_right d hi
  rw [Nat.succ_mul] at hle
  rw [length_stream]
  omega

theorem getD_place (t : List Bool) (bo : BitOrder) (q : Nat) : (place t bo).getD q 0#8 = placeByte t bo q := by
  rw [List.getD_eq_getElem?_getD, place_getElem?]
  by_cases hq : q < ceil8 t.length
  · rw [if_pos hq, Option.getD_some]
  · rw [if_neg hq, Option.getD_none]
    refine BitVec.eq_of_getLsbD_eq fun p hp => ?_
    have hlen : t.length ≤ 8 * q + byteBitPos bo p := by
      have := ceil8_mul_ge t.length
      omega
    rw [getLsbD_placeByte t bo q p hp, List.getD_eq_default _ _ hlen, BitVec.getLsbD_zero]

/-- Stream bit `8q + r` stands in byte `q` at the bit BORD selects (R64). -/
theorem getLsbD_placeByte_byteBitPos (t : List Bool) (bo : BitOrder) (q : Nat) {r : Nat} (hr : r < 8) :
    (placeByte t bo q).getLsbD (byteBitPos bo r) = t.getD (8 * q + r) false := by
  rw [getLsbD_placeByte t bo q _ (byteBitPos_lt hr), byteBitPos_byteBitPos bo hr]

theorem gather_place (t : List Bool) (bo : BitOrder) (k : Nat) : gather (place t bo) bo k = t.getD k false := by
  rw [gather, memRead, getD_place, getLsbD_placeByte_byteBitPos t bo _ (Nat.mod_lt k (by decide)), Nat.div_add_mod]

/-- Settles O10: the stream position `i*d + j` is in range and holds the bit that SORD selects. -/
theorem streamBits : Obligations.StreamBits := by
  refine fun S d so => ⟨length_stream S d so, fun i j hi hj => ?_⟩
  have hbit := getD_stream S d so i hj
  have hlt := mul_add_lt_length_stream so hi hj
  rw [List.getD_eq_getElem _ _ hlt, List.getD_eq_getElem _ _ hi] at hbit
  rw [List.getElem?_eq_getElem hlt, hbit, sampleBitIndex_eq_ite]

/-- Settles O11: each byte holds the eight stream bits of its own, 0 where the stream has ended. -/
theorem placedBits : Obligations.PlacedBits := by
  refine fun T bo => ⟨length_place T bo, fun q r hq hr => ?_⟩
  have hbit := getLsbD_placeByte_byteBitPos T bo q hr
  rw [← getD_place, List.getD_eq_getElem _ _ hq, byteBitPos_eq_sampleBitIndex, sampleBitIndex_eq_ite] at hbit
  rw [hbit]
  by_cases hk : 8 * q + r < T.length <;> simp [hk]

/-- Settles O12: the selections undo themselves, so Gather reads the bit that Place put. -/
theorem gatherOfPlace : Obligations.GatherOfPlace := by
  refine ⟨fun bo r hr => ⟨byteBitPos_lt hr, byteBitPos_byteBitPos bo hr⟩,
    fun so d j hj => ⟨sampleBitIndex_lt hj, sampleBitIndex_sampleBitIndex so hj⟩, fun T bo k hk => ?_⟩
  rw [gather_place, List.getD_eq_getElem _ _ hk]

/-! ### Turning an order over -/

/-- Two placements of streams of one length are equal exactly when every bit of every byte is. -/
theorem place_eq_place_iff {t u : List Bool} (hlen : t.length = u.length) (bo bo' : BitOrder) :
    place t bo = place u bo' ↔
      ∀ q < ceil8 t.length, ∀ p < 8,
        t.getD (8 * q + byteBitPos bo p) false = u.getD (8 * q + byteBitPos bo' p) false := by
  simp only [place, ← hlen, List.map_inj_left, List.mem_range]
  refine forall₂_congr fun q _ => ⟨fun h p hp => ?_, fun h => BitVec.eq_of_getLsbD_eq fun p hp => ?_⟩
  · rw [← getLsbD_placeByte t bo q p hp, ← getLsbD_placeByte u bo' q p hp, h]
  · rw [getLsbD_placeByte t bo q p hp, getLsbD_placeByte u bo' q p hp, h p hp]

theorem placeByte_msbFirst (t : List Bool) (q : Nat) : placeByte t .msbFirst q = (placeByte t .lsbFirst q).reverse := by
  refine BitVec.eq_of_getLsbD_eq fun p hp => ?_
  rw [BitVec.getLsbD_reverse, BitVec.getMsbD_eq_getLsbD, decide_eq_true hp, Bool.true_and,
    getLsbD_placeByte t _ q p hp, getLsbD_placeByte t _ q _ (by omega)]
  rfl

/-- R69 for every stream. -/
theorem place_msbFirst (t : List Bool) : place t .msbFirst = (place t .lsbFirst).map BitVec.reverse := by
  simp [place, placeByte_msbFirst]

/-- Settles O15: every byte of the one buffer is the reversed byte of the other, and reversing twice changes nothing. -/
theorem byteAxisFlipReversesBytes : Obligations.ByteAxisFlipReversesBytes := by
  refine fun S d so => ⟨place_msbFirst _, ?_⟩
  have htwice : BitVec.reverse ∘ BitVec.reverse = (id : Byte → Byte) := funext fun _ => BitVec.reverse_reverse_eq
  rw [packBytes, packBytes, place_msbFirst, List.map_map, htwice, List.map_id]

/-- Streams are equal when the segments of their samples are, one by one. -/
theorem stream_eq_stream {s s' : List Sample} {d : Nat} {so so' : BitOrder} (hlen : s.length = s'.length)
    (hseg : ∀ i < s.length, sampleSegment d so (s.getD i 0#64) = sampleSegment d so' (s'.getD i 0#64)) :
    stream s d so = stream s' d so' := by
  rw [stream, stream, List.flatMap_def, List.flatMap_def]
  refine congrArg _ (List.ext_getElem (by simpa using hlen) fun i hi hi' => ?_)
  simp only [List.length_map] at hi hi'
  simpa [hi, hi'] using hseg i hi

/-- Settles O16: a sample's segment with the most-significant bit first is that of its reversed low bits with the
least-significant bit first. -/
theorem sampleAxisFlipReversesSamples : Obligations.SampleAxisFlipReversesSamples := by
  intro S S' d bo hd hlen hrev
  refine congrArg (place · bo) (stream_eq_stream hlen.symm fun i hi => List.map_inj_left.mpr fun j hj => ?_)
  have hjd : j < d := List.mem_range.mp hj
  rw [sampleBitIndex, sampleBitIndex, hrev i j hi (by omega), decide_eq_true hjd, Bool.true_and]

/-- Settles O18: byte `q` is the same in both buffers when stream bit `8q + p` of the one is stream bit `8q + 7 - p` of
the other, for every `p` below 8. -/
theorem pairedOrdersAgreeExactlyWhen : Obligations.PairedOrdersAgreeExactlyWhen := by
  intro S d
  rw [packBytes, packBytes, place_eq_place_iff (by simp), length_stream]
  refine ⟨fun h k hk => ?_, fun h q hq p hp => ?_⟩
  · have hbit := h (k / 8) (Nat.div_lt_of_lt_mul hk) (k % 8) (Nat.mod_lt k (by decide))
    simp only [byteBitPos] at hbit
    rwa [Nat.div_add_mod, ← Nat.add_sub_assoc (by omega)] at hbit
  · have hbit := h (8 * q + p) (by rw [ceil8] at hq; omega)
    have hq' : (8 * q + p) / 8 = q := by omega
    have hp' : (8 * q + p) % 8 = p := by omega
    rwa [hq', hp', Nat.add_sub_assoc (by omega)] at hbit

/-! ### Depths of whole bytes -/

/-- Byte `b` of a sample's segment holds eight neighbouring bits of the sample, and the order counts the bytes. -/
theorem sampleBitIndex_wholeByte (o : BitOrder) {w b p : Nat} (hb : b < w) (hp : p < 8) :
    sampleBitIndex o (8 * w) (8 * b + byteBitPos o p) = 8 * sampleBitIndex o w b + p := by
  cases o <;> simp only [sampleBitIndex, byteBitPos]
  omega

theorem getD_packBytes_wholeByte (s : List Sample) (o : BitOrder) (i : Nat) {w b : Nat} (hb : b < w) :
    (packBytes s (8 * w) o o).getD (i * w + b) 0#8 = (s.getD i 0#64).extractLsb' (8 * sampleBitIndex o w b) 8 := by
  rw [packBytes, getD_place]
  refine BitVec.eq_of_getLsbD_eq fun p hp => ?_
  have hlt := byteBitPos_lt (bo := o) hp
  have hpos : 8 * (i * w + b) + byteBitPos o p = i * (8 * w) + (8 * b + byteBitPos o p) := by ring
  rw [getLsbD_placeByte _ o _ p hp, hpos, getD_stream s (8 * w) o i (by omega), sampleBitIndex_wholeByte o hb hp,
    BitVec.getLsbD_extractLsb', decide_eq_true hp, Bool.true_and]

theorem length_packBytes_wholeByte (s : List Sample) (w : Nat) (so bo : BitOrder) :
    (packBytes s (8 * w) so bo).length = s.length * w := by
  rw [length_packBytes, Nat.mul_left_comm, ceil8_mul_eight]

theorem toNat_getD_packBytes_wholeByte {s : List Sample} (o : BitOrder) {i w b : Nat} (hi : i < s.length)
    (hb : b < w) :
    ((packBytes s (8 * w) o o).getD (i * w + b) 0#8).toNat =
      s[i].toNat / 2 ^ (8 * sampleBitIndex o w b) % 256 := by
  rw [getD_packBytes_wholeByte s o i hb, List.getD_eq_getElem _ _ hi, BitVec.extractLsb'_toNat,
    Nat.shiftRight_eq_div_pow]

/-- At depth 8 each sample is one byte, its low eight bits, in either order. -/
theorem packBytes_eight (s : List Sample) (o : BitOrder) :
    packBytes s 8 o o = s.map (fun v => BitVec.ofNat 8 (v.toNat % 256)) := by
  have hlen := length_packBytes_wholeByte s 1 o o
  rw [Nat.mul_one, Nat.mul_one] at hlen
  refine List.ext_getElem (by rw [hlen, List.length_map]) fun i hi _ => BitVec.eq_of_toNat_eq ?_
  have hindex : sampleBitIndex o 1 0 = 0 := by cases o <;> rfl
  have hbyte := toNat_getD_packBytes_wholeByte (s := s) o (hlen ▸ hi) Nat.zero_lt_one
  rw [hindex, Nat.mul_one, Nat.mul_one, Nat.add_zero, List.getD_eq_getElem _ _ hi] at hbyte
  simpa using hbyte

/-- Settles O17: byte `i*w + b` is eight neighbouring bits of sample `i`. -/
theorem wholeByteDepths : Obligations.WholeByteDepths := by
  refine ⟨fun S w _ _ => ⟨length_packBytes_wholeByte .., length_packBytes_wholeByte .., fun i b hi hb => ?_⟩,
    fun S => ⟨?_, packBytes_eight S .lsbFirst⟩⟩
  · exact ⟨toNat_getD_packBytes_wholeByte .lsbFirst hi hb, toNat_getD_packBytes_wholeByte .msbFirst hi hb⟩
  · rw [packBytes_eight, packBytes_eight]

/-! ### The buffers as integers

A buffer and its samples carry the same bits. When stream position `k` has weight `W k`, and every byte and every sample
has a weight that its own bits' weights are multiples of, the weighted bytes and the weighted samples have one sum. -/

theorem sum_range_mul_eq_sum_blocks (g : Nat → Nat) (n m : Nat) :
    ∑ k ∈ Finset.range (n * m), g k = ∑ i ∈ Finset.range n, ∑ j ∈ Finset.range m, g (i * m + j) := by
  induction n with
  | zero => simp
  | succ n ih => rw [Nat.succ_mul, Finset.sum_range_add, ih, Finset.sum_range_succ]

theorem mod_two_pow_eq_sum_testBit (x m : Nat) :
    x % 2 ^ m = ∑ p ∈ Finset.range m, (x.testBit p).toNat * 2 ^ p := by
  induction m with
  | zero => simp [Nat.mod_one]
  | succ m ih => rw [Nat.mod_pow_succ, Finset.sum_range_succ, ih, Nat.toNat_testBit, Nat.mul_comm]

/-- Either order selects each of the positions below `d` once. -/
theorem sum_range_sampleBitIndex (so : BitOrder) (d : Nat) (f : Nat → Nat) :
    ∑ j ∈ Finset.range d, f (sampleBitIndex so d j) = ∑ j ∈ Finset.range d, f j := by
  cases so with
  | lsbFirst => rfl
  | msbFirst => exact Finset.sum_range_reflect f d

theorem toNat_mod_two_pow_eq_sum {w : Nat} (v : BitVec w) (so : BitOrder) (d : Nat) :
    v.toNat % 2 ^ d =
      ∑ j ∈ Finset.range d, (v.getLsbD (sampleBitIndex so d j)).toNat * 2 ^ sampleBitIndex so d j := by
  rw [mod_two_pow_eq_sum_testBit, ← sum_range_sampleBitIndex so d]
  simp only [BitVec.testBit_toNat]

theorem sum_stream_eq_sum_samples (s : List Sample) (d : Nat) (so : BitOrder) (W C : Nat → Nat)
    (hW : ∀ i < s.length, ∀ j < d, W (i * d + j) = 2 ^ sampleBitIndex so d j * C i) :
    ∑ k ∈ Finset.range (s.length * d), ((stream s d so).getD k false).toNat * W k =
      ∑ i ∈ Finset.range s.length, ((s.getD i 0#64).toNat % 2 ^ d) * C i := by
  rw [sum_range_mul_eq_sum_blocks]
  refine Finset.sum_congr rfl fun i hi => ?_
  rw [toNat_mod_two_pow_eq_sum _ so d, Finset.sum_mul]
  refine Finset.sum_congr rfl fun j hj => ?_
  rw [Finset.mem_range] at hi hj
  rw [getD_stream s d so i hj, hW i hi j hj, Nat.mul_assoc]

theorem sum_place_eq_sum_bits (t : List Bool) (bo : BitOrder) (W A : Nat → Nat)
    (hW : ∀ q < ceil8 t.length, ∀ r < 8, W (8 * q + r) = 2 ^ byteBitPos bo r * A q) :
    ∑ q ∈ Finset.range (ceil8 t.length), ((place t bo).getD q 0#8).toNat * A q =
      ∑ k ∈ Finset.range t.length, (t.getD k false).toNat * W k := by
  have hpad : ∑ k ∈ Finset.range t.length, (t.getD k false).toNat * W k =
      ∑ k ∈ Finset.range (ceil8 t.length * 8), (t.getD k false).toNat * W k := by
    refine Finset.sum_subset (Finset.range_mono (by have := ceil8_mul_ge t.length; omega)) fun k _ hk => ?_
    rw [List.getD_eq_default _ _ (by simpa using hk), Bool.toNat_false, Nat.zero_mul]
  rw [hpad, sum_range_mul_eq_sum_blocks]
  refine Finset.sum_congr rfl fun q hq => ?_
  rw [getD_place, ← Nat.mod_eq_of_lt (placeByte t bo q).isLt, toNat_mod_two_pow_eq_sum _ bo 8, Finset.sum_mul]
  refine Finset.sum_congr rfl fun r hr => ?_
  rw [Finset.mem_range] at hq hr
  rw [← byteBitPos_eq_sampleBitIndex, getLsbD_placeByte_byteBitPos t bo q hr, Nat.mul_comm q 8, hW q hq r hr,
    Nat.mul_assoc]

/-- The weighted bytes of a buffer and the weighted samples it holds. -/
theorem sum_packBytes_eq_sum_samples (s : List Sample) (d : Nat) (so bo : BitOrder) (W A C : Nat → Nat)
    (hbyte : ∀ q < ceil8 (s.length * d), ∀ r < 8, W (8 * q + r) = 2 ^ byteBitPos bo r * A q)
    (hsample : ∀ i < s.length, ∀ j < d, W (i * d + j) = 2 ^ sampleBitIndex so d j * C i) :
    ∑ q ∈ Finset.range (ceil8 (s.length * d)), ((packBytes s d so bo).getD q 0#8).toNat * A q =
      ∑ i ∈ Finset.range s.length, ((s.getD i 0#64).toNat % 2 ^ d) * C i := by
  have hplace := sum_place_eq_sum_bits (stream s d so) bo W A (by simpa using hbyte)
  rw [length_stream] at hplace
  exact hplace.trans (sum_stream_eq_sum_samples s d so W C hsample)

/-- Settles O13: stream bit `k` has weight `2^k`. -/
theorem pairedLsbClosedForm : Obligations.PairedLsbClosedForm := by
  intro S d
  dsimp only
  rw [length_packBytes]
  refine sum_packBytes_eq_sum_samples S d .lsbFirst .lsbFirst (2 ^ ·) (fun q => 2 ^ (8 * q)) (fun i => 2 ^ (i * d))
    (fun q _ r _ => ?_) (fun i _ j _ => ?_)
  · exact (pow_add 2 (8 * q) r).trans (Nat.mul_comm _ _)
  · exact (pow_add 2 (i * d) j).trans (Nat.mul_comm _ _)

/-- Settles O14: stream bit `k` has weight `2^(8L - 1 - k)` in a buffer of `L` bytes. -/
theorem pairedMsbClosedForm : Obligations.PairedMsbClosedForm := by
  intro S d
  dsimp only
  rw [length_packBytes, Finset.sum_mul]
  simp only [Nat.mul_assoc]
  have hpad := ceil8_mul_ge (S.length * d)
  refine sum_packBytes_eq_sum_samples S d .msbFirst .msbFirst (fun k => 2 ^ (8 * ceil8 (S.length * d) - 1 - k))
    (fun q => 2 ^ (8 * (ceil8 (S.length * d) - 1 - q)))
    (fun i => 2 ^ ((S.length - 1 - i) * d) * 2 ^ (8 * ceil8 (S.length * d) - S.length * d))
    (fun q hq r hr => ?_) (fun i hi j hj => ?_)
  · rw [← pow_add, byteBitPos]
    congr 1
    omega
  · have hsplit : S.length * d = i * d + d + (S.length - 1 - i) * d := by
      rw [← Nat.succ_mul, ← Nat.add_mul]
      congr 1
      omega
    rw [← pow_add, ← pow_add, sampleBitIndex]
    congr 1
    omega

end Sys2Proof.Machine
end

section
/-! The packer (41_pack.md): the length of its output and the pad bits, where a pack splits, and the bits of a sample
that it leaves out. -/

namespace Sys2Proof.Machine

/-! ### Length and pad -/

/-- BORD's selection as the statements write it out. -/
theorem byteBitPos_eq_ite (bo : BitOrder) (r : Nat) : byteBitPos bo r = if bo = .lsbFirst then r else 7 - r := by
  cases bo <;> rfl

theorem outb_of_pack_success {s : List Sample} {d : Nat} {so bo : BitOrder} {r : Response}
    (h : packResult d so bo s = .ok r ∨ packChkResult d so bo s = .ok r) : r.outb = packBytes s d so bo := by
  rcases h with h | h
  · obtain ⟨-, rfl⟩ := packResult_eq_ok.mp h
    rfl
  · obtain ⟨-, -, rfl⟩ := packChkResult_eq_ok.mp h
    rfl

/-- Every position past the samples' last bit reads 0 (R80). -/
theorem gather_packBytes_of_le {s : List Sample} {d : Nat} (so bo : BitOrder) {k : Nat} (hk : s.length * d ≤ k) :
    gather (packBytes s d so bo) bo k = false := by
  rw [packBytes, gather_place, List.getD_eq_default _ _ (by rwa [length_stream])]

/-- Settles O19: the output is PackBytes, which has `ceil8(n*d)` bytes and reads 0 from stream position `n*d` on. -/
theorem packedLengthAndPadBits : Obligations.PackedLengthAndPadBits := by
  intro S d so bo r hok
  rw [outb_of_pack_success hok, length_packBytes, ceil8]
  refine ⟨rfl, fun _ => by omega, fun _ => ⟨by omega, by omega⟩, fun k hk hlt => ⟨by omega, ?_⟩⟩
  rw [← byteBitPos_eq_ite]
  exact gather_packBytes_of_le so bo hk

/-! ### Splitting at a byte boundary -/

/-- A byte depends on no more than its own eight bits of the stream. -/
theorem placeByte_congr {t u : List Bool} {q q' : Nat} (bo : BitOrder)
    (h : ∀ r < 8, t.getD (8 * q + r) false = u.getD (8 * q' + r) false) : placeByte t bo q = placeByte u bo q' := by
  refine BitVec.eq_of_getLsbD_eq fun p hp => ?_
  rw [getLsbD_placeByte t bo q p hp, getLsbD_placeByte u bo q' p hp, h _ (byteBitPos_lt hp)]

/-- R82 for every stream: the bytes of the first part, then the bytes of the second counted from the boundary. -/
theorem place_append {t u : List Bool} {m : Nat} (ht : t.length = 8 * m) (bo : BitOrder) :
    place (t ++ u) bo = place t bo ++ place u bo := by
  have hlen : ceil8 (8 * m + u.length) = m + ceil8 u.length := by
    unfold ceil8
    omega
  simp only [place, List.length_append, ht, hlen, ceil8_mul_eight, List.range_add, List.map_append, List.map_map]
  congr 1
  · refine List.map_congr_left fun q hq => placeByte_congr bo fun r hr => ?_
    rw [List.mem_range] at hq
    rw [List.getD_append _ _ _ _ (by omega)]
  · refine List.map_congr_left fun q _ => placeByte_congr (q := m + q) bo fun r _ => ?_
    have hpos : 8 * (m + q) + r - t.length = 8 * q + r := by omega
    rw [List.getD_append_right _ _ _ _ (by omega), hpos]

/-- Settles O20: the stream of the joined samples is the two streams joined, and the first ends its last byte. -/
theorem packSplitsAtByteBoundary : Obligations.PackSplitsAtByteBoundary := by
  intro S1 S2 d so bo hboundary
  obtain ⟨m, hm⟩ := Nat.dvd_of_mod_eq_zero hboundary
  rw [packBytes, stream_append, place_append ((length_stream S1 d so).trans hm), packBytes, packBytes]

/-! ### Truncation -/

theorem getLsbD_of_toNat_eq_mod {v v' : Sample} {d j : Nat} (h : v'.toNat = v.toNat % 2 ^ d) (hj : j < d) :
    v'.getLsbD j = v.getLsbD j := by
  rw [← BitVec.testBit_toNat, h, Nat.testBit_mod_two_pow, decide_eq_true hj, Bool.true_and, BitVec.testBit_toNat]

/-- A sample's segment holds its low `d` bits and no other. -/
theorem sampleSegment_of_toNat_eq_mod {v v' : Sample} {d : Nat} (so : BitOrder) (h : v'.toNat = v.toNat % 2 ^ d) :
    sampleSegment d so v' = sampleSegment d so v :=
  List.map_congr_left fun _ hj => getLsbD_of_toNat_eq_mod h (sampleBitIndex_lt (List.mem_range.mp hj))

theorem allInRange_of_getD_lt {s : List Sample} {d : Nat} (h : ∀ i < s.length, (s.getD i 0#64).toNat < 2 ^ d) :
    allInRange d s = true := by
  refine List.all_eq_true.mpr fun v hv => decide_eq_true ?_
  obtain ⟨i, hi, rfl⟩ := List.getElem_of_mem hv
  rw [← List.getD_eq_getElem s 0#64 hi]
  exact h i hi

/-- PACK.CHK differs from PACK only in its range check (R78). -/
theorem packChkResult_of_allInRange {s : List Sample} {d : Nat} (so bo : BitOrder) (h : allInRange d s = true) :
    packChkResult d so bo s = packResult d so bo s := by
  simp [packChkResult, packResult, h]

/-- Settles O21: the segments hold only the bits that truncation keeps, and truncated samples pass the range check. -/
theorem packTruncates : Obligations.PackTruncates := by
  intro S S' d so bo hlen hmod
  have hbytes : packBytes S d so bo = packBytes S' d so bo :=
    congrArg (place · bo)
      (stream_eq_stream hlen.symm fun i hi => (sampleSegment_of_toNat_eq_mod so (hmod i hi)).symm)
  have hrange : allInRange d S' = true := allInRange_of_getD_lt fun i hi => by
    rw [hmod i (hlen ▸ hi)]
    exact Nat.mod_lt _ (Nat.two_pow_pos d)
  exact ⟨hbytes, by rw [packChkResult_of_allInRange so bo hrange, packResult, packResult, hbytes]⟩

end Sys2Proof.Machine
end

section
/-! The unpacker (42_unpack.md): every bit of a decoded sample, the bits of the buffer that it depends on, and what
packing and unpacking restore of each other. -/

namespace Sys2Proof.Machine

/-! ### Every bit of a decoded sample -/

/-- Bit `p` of a decoded sample is the stream bit that SampleBitIndex sends there, and 0 from `d` on (R85, R87). -/
theorem getLsbD_unpackValue (b : List Byte) {d : Nat} (so bo : BitOrder) (i p : Nat) (hd : d ≤ 64) :
    (unpackValue b d so bo i).getLsbD p =
      (decide (p < d) && gather b bo (i * d + sampleBitIndex so d p)) := by
  by_cases hp64 : p < 64
  · have hfold := getLsbD_foldl_setBit d (sampleBitIndex so d) (sampleBitIndex so d)
      (fun j => gather b bo (i * d + j)) 0#64 (fun j hj => sampleBitIndex_sampleBitIndex so hj) p hp64
    rw [unpackValue, hfold]
    by_cases hp : p < d
    · simp [hp, sampleBitIndex_lt hp, sampleBitIndex_sampleBitIndex so hp]
    · have hpos : ¬ (sampleBitIndex so d p < d ∧ sampleBitIndex so d (sampleBitIndex so d p) = p) :=
        fun ⟨hlt, heq⟩ => hp (heq ▸ sampleBitIndex_lt hlt)
      simp [hp, hpos]
  · rw [BitVec.getLsbD_of_ge _ _ (Nat.not_lt.mp hp64), decide_eq_false (by omega), Bool.false_and]

theorem getLsbD_unpackValue_sampleBitIndex (b : List Byte) {d j : Nat} (so bo : BitOrder) (i : Nat) (hd : d ≤ 64)
    (hj : j < d) : (unpackValue b d so bo i).getLsbD (sampleBitIndex so d j) = gather b bo (i * d + j) := by
  rw [getLsbD_unpackValue b so bo i _ hd, decide_eq_true (sampleBitIndex_lt hj), Bool.true_and,
    sampleBitIndex_sampleBitIndex so hj]

theorem getLsbD_unpackValue_of_le (b : List Byte) {d p : Nat} (so bo : BitOrder) (i : Nat) (hd : d ≤ 64)
    (hp : d ≤ p) : (unpackValue b d so bo i).getLsbD p = false := by
  rw [getLsbD_unpackValue b so bo i p hd, decide_eq_false (Nat.not_lt.mpr hp), Bool.false_and]

theorem toNat_unpackValue_lt (b : List Byte) {d : Nat} (so bo : BitOrder) (i : Nat) (hd : d ≤ 64) :
    (unpackValue b d so bo i).toNat < 2 ^ d :=
  Nat.lt_pow_two_of_testBit _ fun _ hp => (BitVec.testBit_toNat _).trans (getLsbD_unpackValue_of_le b so bo i hd hp)

/-- Settles O22: SampleBitIndex undoes itself, so the bit it selects is the stream's, and no bit is set from `d` on. -/
theorem unpackedValueBits : Obligations.UnpackedValueBits := by
  refine fun B d so bo i hd => ⟨fun j hj _ => ?_, fun j hj => getLsbD_unpackValue_of_le B so bo i hd hj,
    toNat_unpackValue_lt B so bo i hd⟩
  rw [← sampleBitIndex_eq_ite, getLsbD_unpackValue_sampleBitIndex B so bo i hd hj, ← byteBitPos_eq_ite]
  rfl

/-! ### What a successful UNPACK needs -/

theorem depthInvalid_eq_false_iff {d : Nat} : depthInvalid d = false ↔ 1 ≤ d ∧ d ≤ 64 := by
  rw [← Bool.not_eq_true, depthInvalid_iff]
  omega

theorem unpackResult_of_le {d count : Nat} {b : List Byte} (so bo : BitOrder) (h : requiredLength count d ≤ b.length) :
    unpackResult d so bo b count =
      if depthInvalid d then .error .domainError
      else .ok (Response.ok (nativeWidth d) [] (unpackSamples b d so bo count)) := by
  rw [unpackResult, if_neg (Nat.not_lt.mpr h)]

theorem allInRange_iff {d : Nat} {s : List Sample} : allInRange d s = true ↔ ∀ v ∈ s, v.toNat < 2 ^ d := by
  simp [allInRange]

/-- Settles O26: no decoded word has a bit at `d` or above, which is PACK.CHK's range check. -/
theorem unpackedWordsInRange : Obligations.UnpackedWordsInRange := by
  intro B d count so bo so' bo' r hok
  obtain ⟨hd, -, rfl⟩ := unpackResult_eq_ok.mp hok
  have hlt : ∀ v ∈ unpackSamples B d so bo count, v.toNat < 2 ^ d :=
    List.forall_mem_map.mpr fun i _ => toNat_unpackValue_lt B so bo i (depthInvalid_eq_false_iff.mp hd).2
  exact ⟨hlt, _, packChkResult_eq_ok.mpr ⟨hd, allInRange_iff.mpr hlt, rfl⟩⟩

/-! ### Pad bits and surplus bytes -/

/-- Bit `j` of sample `i` is before the end of `n` samples. -/
theorem mul_add_lt_mul {i n d j : Nat} (hi : i < n) (hj : j < d) : i * d + j < n * d :=
  calc i * d + j < i * d + d := Nat.add_lt_add_left hj _
    _ = (i + 1) * d := (Nat.succ_mul i d).symm
    _ ≤ n * d := Nat.mul_le_mul_right d hi

theorem unpackValue_congr {b b' : List Byte} {d i : Nat} (so : BitOrder) {bo bo' : BitOrder}
    (h : ∀ j < d, gather b bo (i * d + j) = gather b' bo' (i * d + j)) :
    unpackValue b d so bo i = unpackValue b' d so bo' i :=
  List.foldl_ext _ _ _ fun _ j hj => by rw [h j (List.mem_range.mp hj)]

/-- The decoded samples depend on no stream bit from `count * d` on (R86). -/
theorem unpackSamples_congr {b b' : List Byte} {d count : Nat} (so : BitOrder) {bo bo' : BitOrder}
    (h : ∀ k < count * d, gather b bo k = gather b' bo' k) :
    unpackSamples b d so bo count = unpackSamples b' d so bo' count :=
  List.map_congr_left fun _ hi => unpackValue_congr so fun _ hj => h _ (mul_add_lt_mul (List.mem_range.mp hi) hj)

theorem unpackResult_congr {b b' : List Byte} {d count : Nat} (so : BitOrder) {bo : BitOrder}
    (hb : requiredLength count d ≤ b.length) (hb' : requiredLength count d ≤ b'.length)
    (h : ∀ k < count * d, gather b bo k = gather b' bo k) :
    unpackResult d so bo b count = unpackResult d so bo b' count := by
  rw [unpackResult_of_le so bo hb, unpackResult_of_le so bo hb', unpackSamples_congr so h]

/-- Appended bytes do not move the bits before them. -/
theorem gather_append {b : List Byte} (x : List Byte) (bo : BitOrder) {k : Nat} (hk : k / 8 < b.length) :
    gather (b ++ x) bo k = gather b bo k := by
  rw [gather, gather, memRead, memRead, List.getD_append _ _ _ _ hk]

/-- Settles O23: the samples depend on the stream bits below `count * d` alone, and appended bytes leave those. -/
theorem unpackIgnoresPadAndSurplus : Obligations.UnpackIgnoresPadAndSurplus := by
  refine ⟨fun B B' d count so bo hB hB' h => unpackResult_congr so hB hB' h, fun B X d count so bo hB => ?_⟩
  have hBX : requiredLength count d ≤ (B ++ X).length := hB.trans (by simp)
  exact unpackResult_congr so hBX hB fun k hk => gather_append X bo ((div_lt_ceil8 hk).trans_le hB)

/-! ### Unpacking what was packed -/

/-- Sample `i` comes back modulo `2^d` (R90). -/
theorem unpackValue_packBytes (s : List Sample) {d : Nat} (so bo : BitOrder) (i : Nat) (hd : d ≤ 64) :
    unpackValue (packBytes s d so bo) d so bo i = BitVec.ofNat 64 ((s.getD i 0#64).toNat % 2 ^ d) := by
  refine BitVec.eq_of_getLsbD_eq fun p hp64 => ?_
  rw [getLsbD_unpackValue _ so bo i p hd, BitVec.getLsbD_ofNat, decide_eq_true hp64, Bool.true_and,
    Nat.testBit_mod_two_pow, BitVec.testBit_toNat]
  by_cases hp : p < d
  · rw [packBytes, gather_place, getD_stream s d so i (sampleBitIndex_lt hp), sampleBitIndex_sampleBitIndex so hp]
  · simp only [decide_eq_false hp, Bool.false_and]

theorem unpackSamples_packBytes (s : List Sample) {d : Nat} (so bo : BitOrder) (hd : d ≤ 64) :
    unpackSamples (packBytes s d so bo) d so bo s.length = s.map (fun v => BitVec.ofNat 64 (v.toNat % 2 ^ d)) := by
  refine List.ext_getElem (by simp) fun i hi hi' => ?_
  rw [List.length_map] at hi'
  simp [unpackSamples, unpackValue_packBytes s so bo i hd, hi']

/-- Samples in range are left as they are by the truncation (R91). -/
theorem map_mod_two_pow_of_lt {s : List Sample} {d : Nat} (h : ∀ v ∈ s, v.toNat < 2 ^ d) :
    s.map (fun v => BitVec.ofNat 64 (v.toNat % 2 ^ d)) = s :=
  (List.map_congr_left fun v hv => by
    rw [Nat.mod_eq_of_lt (h v hv), BitVec.ofNat_toNat, BitVec.setWidth_eq, id]).trans (List.map_id s)

/-- A transaction whose word was made from an instruction responds with what that instruction computes. -/
theorem respond_of_cmd_eq_encode {t : Transaction} {i : Instr} (h : t.cmd = encode i) (hi : i.wf = true) :
    respond t = Response.ofResult (instrResult i t) := by
  rw [respond, execResult_of_decode_ok (h ▸ decode_encode hi)]

/-- Settles O24: each decoded sample is the packed one modulo `2^d`, which is that sample when it is in range, and then
the range check passes. -/
theorem unpackOfPackRestoresSamples : Obligations.UnpackOfPackRestoresSamples := by
  intro d so bo tp tc tu hd1 hd64 hcp hcc hsc hcu hbytes hcount
  have hd : depthInvalid d = false := depthInvalid_eq_false_iff.mpr ⟨hd1, hd64⟩
  have hwf : d < 128 := by omega
  have hpack : respond tp = Response.ok (nativeWidth d) (packBytes tp.samples d so bo) [] := by
    rw [respond_of_cmd_eq_encode hcp (decide_eq_true hwf), instrResult, packResult_eq_ok.mpr ⟨hd, rfl⟩]
    rfl
  have hlen : requiredLength tu.count d ≤ tu.bytes.length := by
    rw [hbytes, hcount, hpack]
    exact (length_packBytes ..).ge
  have hunpack : respond tu = Response.ok (nativeWidth d) [] (unpackSamples tu.bytes d so bo tu.count) := by
    rw [respond_of_cmd_eq_encode hcu (decide_eq_true hwf), instrResult, unpackResult_eq_ok.mpr ⟨hd, hlen, rfl⟩]
    rfl
  have houts : (respond tu).outs = tp.samples.map (fun v => BitVec.ofNat 64 (v.toNat % 2 ^ d)) := by
    rw [hunpack, hbytes, hcount, hpack]
    exact unpackSamples_packBytes tp.samples so bo hd64
  refine ⟨by rw [hpack]; rfl, by rw [hunpack]; rfl, houts, fun hlt => ⟨?_, houts.trans (map_mod_two_pow_of_lt hlt)⟩⟩
  rw [respond_of_cmd_eq_encode hcc (decide_eq_true hwf), respond_of_cmd_eq_encode hcp (decide_eq_true hwf),
    instrResult, instrResult, hsc, packChkResult_of_allInRange so bo (allInRange_iff.mpr hlt)]

/-! ### Packing what was unpacked -/

/-- Gather at a position counted in bytes and bits. -/
theorem gather_eight_mul_add (b : List Byte) (bo : BitOrder) (q : Nat) {r : Nat} (hr : r < 8) :
    gather b bo (8 * q + r) = (b.getD q 0#8).getLsbD (byteBitPos bo r) := by
  have hq : (8 * q + r) / 8 = q := by omega
  have hr' : (8 * q + r) % 8 = r := by omega
  rw [gather, memRead, hq, hr']

/-- A buffer is its length and what Gather reads of it. -/
theorem eq_of_gather_eq {b b' : List Byte} (bo : BitOrder) (hlen : b.length = b'.length)
    (h : ∀ k < 8 * b.length, gather b bo k = gather b' bo k) : b = b' := by
  refine List.ext_getElem hlen fun q hq hq' => BitVec.eq_of_getLsbD_eq fun p hp => ?_
  have hlt := byteBitPos_lt (bo := bo) hp
  have hbit := h (8 * q + byteBitPos bo p) (by omega)
  rwa [gather_eight_mul_add b bo q hlt, gather_eight_mul_add b' bo q hlt, byteBitPos_byteBitPos bo hp,
    List.getD_eq_getElem _ _ hq, List.getD_eq_getElem _ _ hq'] at hbit

theorem getD_unpackSamples (b : List Byte) (d : Nat) (so bo : BitOrder) {i count : Nat} (hi : i < count) :
    (unpackSamples b d so bo count).getD i 0#64 = unpackValue b d so bo i := by
  simp [unpackSamples, hi]

/-- Packing the decoded samples puts every stream bit back where it was read, and pads with 0 (R92). -/
theorem gather_packBytes_unpackSamples (b : List Byte) {d : Nat} (count : Nat) (so bo : BitOrder) (hd : d ≤ 64)
    (k : Nat) :
    gather (packBytes (unpackSamples b d so bo count) d so bo) bo k = (decide (k < count * d) && gather b bo k) := by
  by_cases hk : k < count * d
  · have hdpos : 0 < d := Nat.pos_of_ne_zero fun h0 => by simp [h0] at hk
    have hi : k / d < count := (Nat.div_lt_iff_lt_mul hdpos).mpr hk
    have hj : k % d < d := Nat.mod_lt k hdpos
    have hbit := getD_stream (unpackSamples b d so bo count) d so (k / d) hj
    rw [getD_unpackSamples b d so bo hi, getLsbD_unpackValue_sampleBitIndex b so bo _ hd hj,
      Nat.div_add_mod'] at hbit
    rw [packBytes, gather_place, hbit, decide_eq_true hk, Bool.true_and]
  · rw [gather_packBytes_of_le so bo (by rw [length_unpackSamples]; omega), decide_eq_false hk, Bool.false_and]

/-- Settles O25: the packed bytes hold the stream bits below `count * d` as they were read, and 0 from there on, where a
canonical buffer holds 0 too. -/
theorem packOfUnpackRestoresBytes : Obligations.PackOfUnpackRestoresBytes := by
  intro B d count so bo r hok
  obtain ⟨hd, -, rfl⟩ := unpackResult_eq_ok.mp hok
  have hlen : (packBytes (unpackSamples B d so bo count) d so bo).length = (count * d + 7) / 8 := by
    rw [length_packBytes, length_unpackSamples, ceil8]
  have hbit := gather_packBytes_unpackSamples B count so bo (depthInvalid_eq_false_iff.mp hd).2
  refine ⟨hlen, fun q b _ hb => ?_, fun hB hpad => ?_⟩
  · rw [← gather_eight_mul_add B bo q hb, ← hbit, gather_eight_mul_add _ bo q hb]
    rfl
  · refine (eq_of_gather_eq bo (hB.trans hlen.symm) fun k hk => Eq.trans ?_ (hbit k).symm).symm
    by_cases hkd : k < count * d
    · rw [decide_eq_true hkd, Bool.true_and]
    · rw [decide_eq_false hkd, Bool.false_and, hpad k (Nat.not_lt.mp hkd) hk]

end Sys2Proof.Machine
end

section
/-! The width selector (43_width_select.md): which row of R95's table a depth stands in, and the laws of R94 and R98 that
follow from the row. -/

namespace Sys2Proof.Machine

/-- The four native widths (R94). -/
theorem NativeWidth.bits_cases (w : NativeWidth) : w.bits = 8 ∨ w.bits = 16 ∨ w.bits = 32 ∨ w.bits = 64 := by
  cases w <;> decide

/-- WTAG is `log2(w / 8)` (R95). -/
theorem NativeWidth.bits_eq_two_pow_tag (w : NativeWidth) : w.bits = 8 * 2 ^ w.tag.toNat := by
  cases w <;> rfl

/-- The depths that select each native width, by the table of R95. -/
theorem bits_nativeWidth_cases (d : Nat) :
    (d ≤ 8 ∧ (nativeWidth d).bits = 8) ∨ (8 < d ∧ d ≤ 16 ∧ (nativeWidth d).bits = 16) ∨
      (16 < d ∧ d ≤ 32 ∧ (nativeWidth d).bits = 32) ∨ (32 < d ∧ (nativeWidth d).bits = 64) := by
  unfold nativeWidth
  split_ifs with h8 h16 h32
  · exact .inl ⟨h8, rfl⟩
  · exact .inr (.inl ⟨Nat.lt_of_not_le h8, h16, rfl⟩)
  · exact .inr (.inr (.inl ⟨Nat.lt_of_not_le h16, h32, rfl⟩))
  · exact .inr (.inr (.inr ⟨Nat.lt_of_not_le h32, rfl⟩))

theorem le_bits_nativeWidth {d : Nat} (hd : d ≤ 64) : d ≤ (nativeWidth d).bits := by
  have hrow := bits_nativeWidth_cases d
  omega

/-- No native width that `d` fits is smaller than `NW(d)` (R94). -/
theorem bits_nativeWidth_le {d : Nat} {w : NativeWidth} (h : d ≤ w.bits) : (nativeWidth d).bits ≤ w.bits := by
  have hw := w.bits_cases
  have hrow := bits_nativeWidth_cases d
  omega

/-- `NW` is monotone: `d` fits whatever width the larger depth fits. -/
theorem bits_nativeWidth_mono {d e : Nat} (hde : d ≤ e) (he : e ≤ 64) :
    (nativeWidth d).bits ≤ (nativeWidth e).bits :=
  bits_nativeWidth_le (hde.trans (le_bits_nativeWidth he))

theorem bits_nativeWidth_lt_two_mul {d : Nat} (hd5 : 5 ≤ d) (hd : d ≤ 64) : (nativeWidth d).bits < 2 * d := by
  have hrow := bits_nativeWidth_cases d
  omega

theorem bits_nativeWidth_eq_eight {d : Nat} (hd : d ≤ 8) : (nativeWidth d).bits = 8 := by
  rw [nativeWidth, if_pos hd, NativeWidth.bits]

/-- The depths that `NW` leaves as they are are the native widths (R98). -/
theorem bits_nativeWidth_eq_self_iff {d : Nat} :
    (nativeWidth d).bits = d ↔ d = 8 ∨ d = 16 ∨ d = 32 ∨ d = 64 := by
  constructor
  · intro h
    exact h ▸ (nativeWidth d).bits_cases
  · rintro (rfl | rfl | rfl | rfl) <;> rfl

/-- Settles O35: the row of R95's table gives the bounds, and `NW` is monotone because it is the smallest width that
fits. -/
theorem nativeWidthLaws : Obligations.NativeWidthLaws :=
  ⟨fun d _ hd =>
    ⟨le_bits_nativeWidth hd, fun _ hw => bits_nativeWidth_le hw, (nativeWidth d).bits_eq_two_pow_tag,
      tag_nativeWidth d, fun hd5 => bits_nativeWidth_lt_two_mul hd5 hd,
      fun hd4 => bits_nativeWidth_eq_eight (hd4.trans (by decide)), bits_nativeWidth_eq_self_iff⟩,
    fun _ _ _ hde he => bits_nativeWidth_mono hde he⟩

end Sys2Proof.Machine
end

section
/-! Outcomes (60_exceptions.md R99 to R107): the domain check that every instruction makes first, the STATUS of a
transaction as the first error in R106's order, and the one form of an error response. -/

open Sys2Proof.Stated

namespace Sys2Proof.Machine

/-- Settles O32: each of the four computations raises DomainError before it looks at its operands. -/
theorem domainErrorOutsideDepths : Obligations.DomainErrorOutsideDepths := by
  intro s t i hheld hd
  rw [exec_eq_finish, State.finish_of_held hheld, instrResult_of_depthInvalid (depthInvalid_iff.mpr hd)]
  rfl

/-! ### The first error in order -/

theorem allInRange_eq_false_iff {d : Nat} {s : List Sample} : allInRange d s = false ↔ ∃ v ∈ s, 2 ^ d ≤ v.toNat := by
  rw [← Bool.not_eq_true, allInRange_iff]
  push Not
  rfl

theorem status_packResult (d : Nat) (so bo : BitOrder) (s : List Sample) :
    (Response.ofResult (packResult d so bo s)).status = if depthInvalid d then 2#4 else 0#4 := by
  unfold packResult
  split <;> rfl

theorem status_packChkResult (d : Nat) (so bo : BitOrder) (s : List Sample) :
    (Response.ofResult (packChkResult d so bo s)).status =
      if depthInvalid d then 2#4 else if allInRange d s = false then 3#4 else 0#4 := by
  unfold packChkResult
  cases allInRange d s <;> split <;> rfl

theorem status_unpackResult (d : Nat) (so bo : BitOrder) (b : List Byte) (count : Nat) :
    (Response.ofResult (unpackResult d so bo b count)).status =
      if depthInvalid d then 2#4 else if b.length < requiredLength count d then 4#4 else 0#4 := by
  unfold unpackResult
  split_ifs <;> rfl

theorem status_nwidthResult (d : Nat) :
    (Response.ofResult (nwidthResult d)).status = if depthInvalid d then 2#4 else 0#4 := by
  unfold nwidthResult
  split <;> rfl

/-- R106's order, as a chain of conditions on the fields of the command word. -/
theorem status_respond (t : Transaction) :
    (respond t).status =
      if illegal t.cmd then 1#4
      else if depthInvalid (depthField t.cmd) then 2#4
      else if opField t.cmd = 0 ∧ strictBit t.cmd = true ∧ allInRange (depthField t.cmd) t.samples = false then 3#4
      else if opField t.cmd = 1 ∧ t.bytes.length < requiredLength t.count (depthField t.cmd) then 4#4
      else 0#4 := by
  cases hdec : decode t.cmd with
  | error e =>
    rw [respond, execResult_of_decode_error hdec, if_pos (illegal_of_decode_error hdec)]
    rfl
  | ok i =>
    rw [respond, execResult_of_decode_ok hdec, illegal_eq_false_of_decode_ok hdec]
    obtain ⟨-, ⟨hop, hst, rfl⟩ | ⟨hop, hst, rfl⟩ | ⟨hop, -, rfl⟩ | ⟨hop, -, -, -, rfl⟩⟩ := decode_eq_ok hdec
    · simp [instrResult, status_packResult, hop, hst]
    · simp [instrResult, status_packChkResult, hop, hst]
    · simp [instrResult, status_unpackResult, hop]
    · simp [instrResult, status_nwidthResult, hop]

/-- Each value of a chain of conditions is taken exactly when its condition is the first that holds; the last two
conditions exclude each other, so their order does not matter. -/
theorem status_iff_of_priority {st : StatusCode} {bad dom range len : Prop} [Decidable bad] [Decidable dom]
    [Decidable range] [Decidable len] (hex : ¬ (range ∧ len))
    (hst : st = if bad then 1#4 else if dom then 2#4 else if range then 3#4 else if len then 4#4 else 0#4) :
    (st = 1#4 ↔ bad) ∧ (st = 2#4 ↔ ¬ bad ∧ dom) ∧ (st = 3#4 ↔ ¬ bad ∧ ¬ dom ∧ range) ∧
      (st = 4#4 ↔ ¬ bad ∧ ¬ dom ∧ len) ∧ (st = 0#4 ↔ ¬ bad ∧ ¬ dom ∧ ¬ range ∧ ¬ len) ∧ ¬ (range ∧ len) := by
  subst hst
  split_ifs with hbad hdom hrange hlen
  · simpa [hbad] using hex
  · simpa [hbad, hdom] using hex
  · have hlen : ¬ len := fun h => hex ⟨hrange, h⟩
    simp [hbad, hdom, hrange, hlen]
  · simp [hbad, hdom, hrange, hlen]
  · simp [hbad, hdom, hrange, hlen]

/-- Settles O36: the STATUS is the chain of R106, and PACK.CHK's range check and UNPACK's length check belong to
different operations. -/
theorem statusByPriority : Obligations.StatusByPriority := by
  intro t
  have hex : ¬ ((opField t.cmd = 0 ∧ strictBit t.cmd = true ∧ allInRange (depthField t.cmd) t.samples = false) ∧
      (opField t.cmd = 1 ∧ t.bytes.length < requiredLength t.count (depthField t.cmd))) := by
    rintro ⟨⟨hop0, -⟩, hop1, -⟩
    omega
  have hiff := status_iff_of_priority hex (status_respond t)
  simpa only [illegal_iff, depthInvalid_iff, allInRange_eq_false_iff, opField_eq, depthField_eq, strictBit_eq,
    decide_eq_true_eq, requiredLength, ceil8] using hiff

/-! ### The error response -/

theorem status_of_instrResult_eq_ok {i : Instr} {t : Transaction} {r : Response} (h : instrResult i t = .ok r) :
    r.status = 0#4 := by
  cases i with
  | pack d so bo => obtain ⟨-, rfl⟩ := packResult_eq_ok.mp h; rfl
  | packChk d so bo => obtain ⟨-, -, rfl⟩ := packChkResult_eq_ok.mp h; rfl
  | unpack d so bo => obtain ⟨-, -, rfl⟩ := unpackResult_eq_ok.mp h; rfl
  | nwidth d => obtain ⟨-, rfl⟩ := nwidthResult_eq_ok.mp h; rfl

/-- A transaction succeeds, or what its instance emits is the error response of one of the four causes (R100, R107). -/
theorem emitted_eq_error_of_status_ne_zero {t : Transaction} (h : (emitted t).status ≠ 0#4) :
    ∃ e, emitted t = Response.error e := by
  cases hdec : decode t.cmd with
  | error e => exact ⟨.illegalCommand, emitted_of_decode_error ⟨e, hdec⟩⟩
  | ok i =>
    simp only [emitted, hdec] at h ⊢
    cases hres : instrResult i t with
    | error e => exact ⟨e, rfl⟩
    | ok r =>
      rw [hres] at h
      exact absurd (status_of_instrResult_eq_ok hres) h

theorem ErrorKind.code_cases (e : ErrorKind) : e.code = 1#4 ∨ e.code = 2#4 ∨ e.code = 3#4 ∨ e.code = 4#4 := by
  cases e <;> decide

/-- Settles O37: the completion emits one response on its own instance, and a STATUS other than 0 makes it the error
response of one of the four causes. -/
theorem errorResponseCarriesNothing : Obligations.ErrorResponseCarriesNothing := by
  intro s s' k c t es hin hk hp hstep
  rw [step_complete_busy hin hk hp] at hstep
  cases hstep
  refine ⟨emitted t, rfl, fun hne => ?_⟩
  obtain ⟨e, he⟩ := emitted_eq_error_of_status_ne_zero hne
  rw [he]
  exact ⟨rfl, e.code_cases⟩

end Sys2Proof.Machine
end

section
/-! Unpacking a packed buffer with another count (70_reset_and_hazards.md R125): the decoded words of a count are the
first of those of every larger one, and past the samples of a packed buffer there are only pad bits. -/

open Sys2Proof.Stated

namespace Sys2Proof.Machine

/-! ### What UNPACK answers at a valid depth -/

theorem unpackResult_ok_of_le {d count : Nat} {b : List Byte} (so bo : BitOrder) (hd : 1 ≤ d ∧ d ≤ 64)
    (h : requiredLength count d ≤ b.length) :
    unpackResult d so bo b count =
      .ok { status := 0#4, wtag := tagOf d, outb := [], outs := unpackSamples b d so bo count } := by
  rw [unpackResult_eq_ok, ← tag_nativeWidth]
  exact ⟨depthInvalid_eq_false_iff.mpr hd, h, rfl⟩

theorem unpackResult_error_of_lt {d count : Nat} {b : List Byte} (so bo : BitOrder) (hd : 1 ≤ d ∧ d ≤ 64)
    (h : b.length < requiredLength count d) : unpackResult d so bo b count = .error .lengthError := by
  simp [unpackResult, depthInvalid_eq_false_iff.mpr hd, h]

/-! ### The words of another count -/

theorem requiredLength_mono {count n : Nat} (d : Nat) (h : count ≤ n) : requiredLength count d ≤ requiredLength n d :=
  Nat.div_le_div_right (Nat.add_le_add_right (Nat.mul_le_mul_right d h) 7)

theorem take_unpackSamples (b : List Byte) (d : Nat) (so bo : BitOrder) (n count : Nat) :
    (unpackSamples b d so bo count).take n = unpackSamples b d so bo (min n count) := by
  rw [unpackSamples, unpackSamples, ← List.map_take, List.take_range]

theorem getElem_drop_unpackSamples (b : List Byte) (d : Nat) (so bo : BitOrder) {n count i : Nat}
    (hi : i < ((unpackSamples b d so bo count).drop n).length) :
    ((unpackSamples b d so bo count).drop n)[i] = unpackValue b d so bo (n + i) := by
  simp [unpackSamples]

/-- Surplus bytes do not disturb the samples before them. -/
theorem unpackSamples_packBytes_append (s : List Sample) (x : List Byte) {d : Nat} (so bo : BitOrder) (hd : d ≤ 64) :
    unpackSamples (packBytes s d so bo ++ x) d so bo s.length =
      s.map (fun v => BitVec.ofNat 64 (v.toNat % 2 ^ d)) := by
  rw [← unpackSamples_packBytes s so bo hd]
  exact unpackSamples_congr so fun k hk => gather_append x bo ((div_lt_ceil8 hk).trans_eq (length_packBytes ..).symm)

/-- A word read from the pad bits alone is 0. -/
theorem unpackValue_packBytes_of_le {s : List Sample} {d i : Nat} (so bo : BitOrder) (hd : d ≤ 64)
    (hi : s.length ≤ i) : unpackValue (packBytes s d so bo) d so bo i = 0#64 := by
  rw [unpackValue_packBytes s so bo i hd, List.getD_eq_default _ _ hi, BitVec.toNat_zero, Nat.zero_mod]

/-- Settles O27: a smaller count takes the first of the samples' words; a larger one drops them to reach the words past
them, whose bits are the stream's, 0 where the buffer ends with its pad bits. -/
theorem countMismatchExactly : Obligations.CountMismatchExactly := by
  intro S X d count so bo hd1 hd64 _ B S'
  have hsamples : unpackSamples B d so bo S.length = S' := unpackSamples_packBytes_append S X so bo hd64
  refine ⟨fun hlt => ?_, fun hgt hlen => ⟨(unpackSamples B d so bo count).drop S.length, ?_, ?_, ?_, ?_⟩,
    fun hshort => unpackResult_error_of_lt so bo ⟨hd1, hd64⟩ hshort⟩
  · have hlen : requiredLength S.length d ≤ B.length := by simp [B, requiredLength]
    rw [unpackResult_ok_of_le so bo ⟨hd1, hd64⟩ ((requiredLength_mono d hlt.le).trans hlen), ← hsamples,
      take_unpackSamples, Nat.min_eq_left hlt.le]
  · have htake : (unpackSamples B d so bo count).take S.length = S' := by
      rw [take_unpackSamples, Nat.min_eq_left hgt.le, hsamples]
    rw [unpackResult_ok_of_le so bo ⟨hd1, hd64⟩ hlen, ← htake, List.take_append_drop]
  · rw [List.length_drop, length_unpackSamples]
  · intro i j hi hj
    rw [getElem_drop_unpackSamples, getLsbD_unpackValue_sampleBitIndex B so bo _ hd64 hj]
  · intro hX
    have hB : B = packBytes S d so bo := by simp [B, hX]
    refine List.ext_getElem (by simp) fun i hi _ => ?_
    rw [getElem_drop_unpackSamples, List.getElem_replicate, hB]
    exact unpackValue_packBytes_of_le so bo hd64 (Nat.le_add_right _ _)

end Sys2Proof.Machine
end

section
/-! Command words and instructions (30_encoding.md R49, R51, R52, R57): the encoder and the decoder are inverse to each
other, the rows of the opcode table by mask and match, and the assembler line of every word. -/

open Sys2Proof.Stated

namespace Sys2Proof

/-- Settles O1: the fields of the encoded word are the instruction's, and the decoder reads them back. -/
theorem decodeOfEncode : Obligations.DecodeOfEncode := fun _ hi => decode_encode hi

theorem wf_of_decode_eq_ok {c : Cmd} {i : Instr} (h : decode c = .ok i) : i.wf = true := by
  obtain ⟨-, ⟨-, -, rfl⟩ | ⟨-, -, rfl⟩ | ⟨-, -, rfl⟩ | ⟨-, -, -, -, rfl⟩⟩ := decode_eq_ok h <;>
    exact decide_eq_true (depthField_lt c)

/-- The decoder drops no bit of a legal word: the sum of R49 is the word. -/
theorem encode_of_decode_eq_ok {c : Cmd} {i : Instr} (h : decode c = .ok i) : encode i = c := by
  refine BitVec.eq_of_toNat_eq ?_
  rw [toNat_encode (wf_of_decode_eq_ok h), toNat_eq_fields c]
  obtain ⟨hrsv, ⟨hop, hst, rfl⟩ | ⟨hop, hst, rfl⟩ | ⟨hop, hst, rfl⟩ | ⟨hop, hst, hbo, hso, rfl⟩⟩ := decode_eq_ok h <;>
    simp [Instr.op, Instr.depth, Instr.sord, Instr.bord, Instr.strict, *]

/-- Settles O2: the fields of a legal word are those of its instruction, and the word is their sum. -/
theorem encodeOfDecode : Obligations.EncodeOfDecode := fun _ _ h => ⟨wf_of_decode_eq_ok h, encode_of_decode_eq_ok h⟩

/-- Settles O8: the line of a legal word assembles to the word of the instruction it decodes to, which is that word. -/
theorem assembleOfDisassemble : Obligations.AssembleOfDisassemble := by
  intro c
  unfold disassemble
  cases hdec : decode c with
  | error e => exact ⟨rfl, rfl, fun _ => ⟨e, rfl⟩, fun _ => rfl⟩
  | ok i =>
    have henc := encode_of_decode_eq_ok hdec
    have hwf : i.depth ≤ 127 := Nat.le_of_lt_succ (of_decide_eq_true (wf_of_decode_eq_ok hdec))
    cases i <;> exact ⟨henc, decide_eq_true hwf, fun h => (nomatch h), fun ⟨_, h⟩ => (nomatch h)⟩

/-! ### The opcode table by mask and match (R51) -/

theorem fieldOrder_sord (c : Cmd) : fieldOrder (c.toNat / 512 % 2) = .ofBit (sordBit c) := by
  rw [sordBit_eq, fieldOrder]
  split_ifs with h <;> simp [h, BitOrder.ofBit]

theorem fieldOrder_bord (c : Cmd) : fieldOrder (c.toNat / 1024 % 2) = .ofBit (bordBit c) := by
  rw [bordBit_eq, fieldOrder]
  split_ifs with h <;> simp [h, BitOrder.ofBit]

/-- The kind of a word decides what it decodes to: the instruction of that kind with the word's fields, or nothing. -/
theorem decode_iff_kindOf (c : Cmd) :
    (decode c = .ok (.pack (depthField c) (.ofBit (sordBit c)) (.ofBit (bordBit c))) ↔ kindOf c = .pack) ∧
    (decode c = .ok (.packChk (depthField c) (.ofBit (sordBit c)) (.ofBit (bordBit c))) ↔ kindOf c = .packChk) ∧
    (decode c = .ok (.unpack (depthField c) (.ofBit (sordBit c)) (.ofBit (bordBit c))) ↔ kindOf c = .unpack) ∧
    (decode c = .ok (.nwidth (depthField c)) ↔ kindOf c = .nwidth) ∧
    ((∃ e, decode c = .error e) ↔ kindOf c = .illegal) := by
  unfold kindOf
  cases hdec : decode c with
  | error e => simp
  | ok i =>
    obtain ⟨-, ⟨-, -, rfl⟩ | ⟨-, -, rfl⟩ | ⟨-, -, rfl⟩ | ⟨-, -, -, -, rfl⟩⟩ := decode_eq_ok hdec <;> simp

/-- What a mask that keeps the bits 0 and 1 and the `j` bits from `k` up leaves of a number. -/
theorem and_mask_eq {x mask k j : Nat} (hk : 2 ≤ k) (hlo : mask % 2 ^ k = 3) (hhi : mask / 2 ^ k = 2 ^ j - 1) :
    x &&& mask = x % 4 + 2 ^ k * (x / 2 ^ k % 2 ^ j) := by
  have hmod : (x &&& mask) % 2 ^ k = x % 4 := by
    rw [Nat.and_mod_two_pow, hlo, Nat.and_two_pow_sub_one_eq_mod _ 2]
    exact Nat.mod_mod_of_dvd x (pow_dvd_pow 2 hk)
  have hdiv : (x &&& mask) / 2 ^ k = x / 2 ^ k % 2 ^ j := by
    rw [Nat.and_div_two_pow, hhi, Nat.and_two_pow_sub_one_eq_mod]
  rw [← hmod, ← hdiv, Nat.mod_add_div]

/-- The rows of the table are the intervals that `kindOf` sorts the words into. -/
theorem mask_match_iff_inRow (c : Cmd) :
    (c &&& 0xF803#16 = 0x0000#16 ↔ InRow 0 512 0 c.toNat) ∧
    (c &&& 0xF803#16 = 0x0800#16 ↔ InRow 2048 512 0 c.toNat) ∧
    (c &&& 0xF803#16 = 0x0001#16 ↔ InRow 0 512 1 c.toNat) ∧
    (c &&& 0xFE03#16 = 0x0002#16 ↔ InRow 0 128 2 c.toNat) := by
  have hlt : c.toNat < 65536 := c.isLt
  have h5 : c.toNat &&& 0xF803 = c.toNat % 4 + 2048 * (c.toNat / 2048 % 32) :=
    and_mask_eq (k := 11) (j := 5) (by decide) rfl rfl
  have h7 : c.toNat &&& 0xFE03 = c.toNat % 4 + 512 * (c.toNat / 512 % 128) :=
    and_mask_eq (k := 9) (j := 7) (by decide) rfl rfl
  simp only [← BitVec.toNat_inj, BitVec.toNat_and, BitVec.toNat_ofNat, Nat.reducePow, Nat.reduceMod, h5, h7]
  omega

/-- Settles O4: a row's mask and match pick the words of its interval, which are the words of its kind; the words of no
row are those left over. -/
theorem opcodeTableSelectsByMaskAndMatch : Obligations.OpcodeTableSelectsByMaskAndMatch := by
  intro c
  obtain ⟨hpack, hchk, hunpack, hnwidth, hillegal⟩ := decode_iff_kindOf c
  obtain ⟨kpack, kchk, kunpack, knwidth⟩ := kindOf_eq_iff c
  obtain ⟨mpack, mchk, munpack, mnwidth⟩ := mask_match_iff_inRow c
  simp only [fieldOrder_sord, fieldOrder_bord, ← depthField_eq, ne_eq, mpack, mchk, munpack, mnwidth, hpack, hchk,
    hunpack, hnwidth, hillegal, ← kpack, ← kchk, ← kunpack, ← knwidth]
  cases kindOf c <;> simp

/-- Settles O7: the eleven words, evaluated. -/
theorem specWordsDecode : Obligations.SpecWordsDecode := by
  unfold Obligations.SpecWordsDecode
  decide

end Sys2Proof
end

section
/-! A host's placement of a buffer (20_memory.md R32): what is read back at every address. -/

namespace Sys2Proof.Machine

/-- Reading meets the first byte of a buffer at its own address, and the rest of the buffer at every other. -/
theorem hostRead_hostPlace_cons (base a : Nat) (b : Byte) (bs : List Byte) :
    hostRead (hostPlace base (b :: bs)) a = if base = a then some b else hostRead (hostPlace (base + 1) bs) a := by
  by_cases h : base = a <;> simp [hostRead, hostPlace, h]

theorem hostRead_hostPlace_add (P : List Byte) (base q : Nat) : hostRead (hostPlace base P) (base + q) = P[q]? := by
  induction P generalizing base q with
  | nil => rfl
  | cons b bs ih =>
    rw [hostRead_hostPlace_cons]
    cases q with
    | zero => simp
    | succ q =>
      rw [if_neg (by omega), Nat.add_comm q 1, ← Nat.add_assoc, ih, Nat.add_comm 1 q, List.getElem?_cons_succ]

theorem hostRead_hostPlace_of_lt (P : List Byte) {base a : Nat} (h : a < base) :
    hostRead (hostPlace base P) a = none := by
  induction P generalizing base with
  | nil => rfl
  | cons b bs ih => rw [hostRead_hostPlace_cons, if_neg h.ne', ih (Nat.lt_succ_of_lt h)]

/-- Reading a list element by element gives it back whole. -/
theorem mapM_range_getElem? {α : Type} (l : List α) : (List.range l.length).mapM (fun q => l[q]?) = some l := by
  induction l with
  | nil => rfl
  | cons a l ih => simp [List.range_succ_eq_map, List.mapM_cons, List.mapM_map, Function.comp_def, ih]

/-- Settles O58: byte `q` is met after the `q` bytes before it, each at a lower address. -/
theorem hostLayoutKeepsByteOrder : Obligations.HostLayoutKeepsByteOrder := by
  refine fun base P => ⟨hostRead_hostPlace_add P base, fun a ha => hostRead_hostPlace_of_lt P ha, ?_⟩
  simp only [hostFetch, hostRead_hostPlace_add, mapM_range_getElem?]

end Sys2Proof.Machine
end

section
/-! The instructions (41_pack.md R77, R78; 42_unpack.md R88; 43_width_select.md R97): how each one completes, what it leaves
unchanged, what its response depends on, and the capacity its transaction needs. -/

open Sys2Proof.Stated

namespace Sys2Proof.Machine

/-! ### Completion -/

/-- Running an instruction where a transaction is held ends that transaction with what the instruction computes. -/
theorem exec_of_held {s : State} {t : Transaction} (h : s.held = some t) (i : Instr) :
    exec i s = .next (s.emit (Response.ofResult (instrResult i t))) := by
  rw [exec_eq_finish, State.finish_of_held h]

theorem packResult_ok {d : Nat} (so bo : BitOrder) (s : List Sample) (hd : 1 ≤ d ∧ d ≤ 64) :
    packResult d so bo s = .ok { status := 0#4, wtag := tagOf d, outb := packBytes s d so bo, outs := [] } := by
  rw [packResult_eq_ok, ← tag_nativeWidth]
  exact ⟨depthInvalid_eq_false_iff.mpr hd, rfl⟩

theorem packChkResult_error {d : Nat} (so bo : BitOrder) {s : List Sample} (hd : 1 ≤ d ∧ d ≤ 64)
    (h : ∃ v ∈ s, 2 ^ d ≤ v.toNat) : packChkResult d so bo s = .error .rangeError := by
  simp [packChkResult, depthInvalid_eq_false_iff.mpr hd, allInRange_eq_false_iff.mpr h]

theorem nwidthResult_ok {d : Nat} (hd : 1 ≤ d ∧ d ≤ 64) :
    nwidthResult d = .ok { status := 0#4, wtag := tagOf d, outb := [], outs := [] } := by
  rw [nwidthResult_eq_ok, ← tag_nativeWidth]
  exact ⟨depthInvalid_eq_false_iff.mpr hd, rfl⟩

/-- Settles O28: at a valid depth PACK's computation succeeds. -/
theorem packCompletes : Obligations.PackCompletes := by
  intro s t d so bo hheld hd1 hd64
  rw [exec_of_held hheld, instrResult, packResult_ok so bo t.samples ⟨hd1, hd64⟩]
  rfl

/-- Settles O29: with every sample in range PACK.CHK computes what PACK does, else it raises RangeError. -/
theorem packChkCompletesOrRangeError : Obligations.PackChkCompletesOrRangeError := by
  intro s t d so bo hheld hd1 hd64
  rw [exec_of_held hheld, instrResult]
  refine ⟨fun hin => ?_, fun hout => ?_⟩
  · rw [packChkResult_of_allInRange so bo (allInRange_iff.mpr hin), packResult_ok so bo t.samples ⟨hd1, hd64⟩]
    rfl
  · rw [packChkResult_error so bo ⟨hd1, hd64⟩ hout]
    rfl

/-- Settles O30: UNPACK succeeds with enough bytes and raises LengthError with fewer. -/
theorem unpackCompletesOrLengthError : Obligations.UnpackCompletesOrLengthError := by
  intro s t d so bo hheld hd1 hd64
  rw [exec_of_held hheld, instrResult]
  refine ⟨fun hle => ?_, fun hlt => ?_⟩
  · rw [unpackResult_ok_of_le so bo ⟨hd1, hd64⟩ hle]
    rfl
  · rw [unpackResult_error_of_lt so bo ⟨hd1, hd64⟩ hlt]
    rfl

/-- Settles O31: at a valid depth NWIDTH's computation succeeds. -/
theorem nwidthCompletes : Obligations.NwidthCompletes := by
  intro s t d hheld hd1 hd64
  rw [exec_of_held hheld, instrResult, nwidthResult_ok ⟨hd1, hd64⟩]
  rfl

/-- Settles O33: every instruction ends the held transaction, and faults where none is held. -/
theorem execNeedsHeldTransaction : Obligations.ExecNeedsHeldTransaction := by
  intro i s
  obtain ⟨t, hheld, hexec⟩ | ⟨hheld, hexec⟩ := exec_cases i s <;> simp [hheld, hexec]

/-- Settles O34: every instruction only emits a response on the present instance. -/
theorem instructionFrame : Obligations.InstructionFrame := by
  intro i s s' h
  obtain ⟨t, hheld, hexec⟩ | ⟨-, hexec⟩ := exec_cases i s
  · obtain rfl := Host.Outcome.next.inj (hexec.symm.trans h)
    obtain ⟨c, hc, -⟩ := State.held_eq_some.mp hheld
    exact ⟨rfl, rfl, rfl, List.length_modify .., fun k hk => State.getElem?_modifyCur_of_ne s _ hk,
      c, _, hc, State.getElem?_modifyCur_self _ hc⟩
  · cases hexec.symm.trans h

/-! ### What a response depends on -/

/-- Settles O39: the computation of the decoded instruction takes only the operands of its own operation. -/
theorem unreadOperandsIgnored : Obligations.UnreadOperandsIgnored := by
  intro t t' hcmd hpack hunpack
  rw [← opField_eq] at hpack hunpack
  rw [respond, respond]
  cases hdec : decode t.cmd with
  | error e => rw [execResult_of_decode_error hdec, execResult_of_decode_error (hcmd ▸ hdec)]
  | ok i =>
    rw [execResult_of_decode_ok hdec, execResult_of_decode_ok (hcmd ▸ hdec)]
    obtain ⟨-, ⟨hop, -, rfl⟩ | ⟨hop, -, rfl⟩ | ⟨hop, -, rfl⟩ | ⟨-, -, -, -, rfl⟩⟩ := decode_eq_ok hdec
    · rw [instrResult, instrResult, hpack hop]
    · rw [instrResult, instrResult, hpack hop]
    · obtain ⟨hbytes, hcount⟩ := hunpack hop
      rw [instrResult, instrResult, hbytes, hcount]
    · rfl

/-! ### Capacity in numbers (R7, R8, R22) -/

theorem withinCapacity_iff {p : Params} {t : Transaction} :
    withinCapacity p t = true ↔
      withinBound p.maxSamples (sampleCount t) = true ∧ withinBound p.maxBytes t.bytes.length = true ∧
        withinBound p.maxBytes (respond t).outb.length = true ∧ countFits p.countBits t.count = true := by
  simp only [withinCapacity, Bool.and_eq_true, and_assoc]

/-- The samples an instruction counts of a transaction's operands. -/
def instrSampleCount (i : Instr) (t : Transaction) : Nat :=
  match i with
  | .pack _ _ _ => t.samples.length
  | .packChk _ _ _ => t.samples.length
  | .unpack _ _ _ => t.count
  | .nwidth _ => 0

theorem sampleCount_of_decode_ok {t : Transaction} {i : Instr} (h : decode t.cmd = .ok i) :
    sampleCount t = instrSampleCount i t := by
  unfold sampleCount
  rw [h]
  cases i <;> rfl

/-- Capacity with every bound given, for the transaction of an instruction. -/
theorem withinCapacity_iff_of_bounds {p : Params} {t : Transaction} {i : Instr} {ms mb cb : Nat}
    (hms : p.maxSamples = some ms) (hmb : p.maxBytes = some mb) (hcb : p.countBits = some cb)
    (hcmd : t.cmd = encode i) (hi : i.wf = true) :
    withinCapacity p t = true ↔
      instrSampleCount i t ≤ ms ∧ t.bytes.length ≤ mb ∧ (Response.ofResult (instrResult i t)).outb.length ≤ mb ∧
        t.count < 2 ^ cb := by
  rw [withinCapacity_iff, hms, hmb, hcb, respond_of_cmd_eq_encode hcmd hi,
    sampleCount_of_decode_ok (hcmd ▸ decode_encode hi)]
  simp only [withinBound, countFits, decide_eq_true_eq]

theorem length_outb_packChkResult {d : Nat} (so bo : BitOrder) (s : List Sample) (hd : 1 ≤ d ∧ d ≤ 64) :
    (Response.ofResult (packChkResult d so bo s)).outb.length =
      if allInRange d s = true then ceil8 (s.length * d) else 0 := by
  split_ifs with h
  · rw [packChkResult_of_allInRange so bo h, packResult_ok so bo s hd]
    exact length_packBytes ..
  · rw [packChkResult_error so bo hd (allInRange_eq_false_iff.mp (Bool.not_eq_true _ ▸ h))]
    rfl

theorem outb_unpackResult (d : Nat) (so bo : BitOrder) (b : List Byte) (count : Nat) :
    (Response.ofResult (unpackResult d so bo b count)).outb = [] := by
  unfold unpackResult
  split_ifs <;> rfl

theorem outb_nwidthResult (d : Nat) : (Response.ofResult (nwidthResult d)).outb = [] := by
  unfold nwidthResult
  split <;> rfl

/-- Settles O54: the bounds on the samples counted and on the bytes of the response, operation by operation. -/
theorem capacityInNumbers : Obligations.CapacityInNumbers := by
  intro p t d so bo ms mb cb hd1 hd64 hms hmb hcb
  have hwf : d < 128 := by omega
  refine ⟨fun hcmd => ?_, fun hcmd => ?_, fun hcmd => ?_, fun hcmd => ?_⟩ <;>
    rw [withinCapacity_iff_of_bounds hms hmb hcb hcmd (decide_eq_true hwf), instrResult, instrSampleCount]
  · simp [packResult_ok so bo t.samples ⟨hd1, hd64⟩, Response.ofResult, ceil8]
  · rw [length_outb_packChkResult so bo t.samples ⟨hd1, hd64⟩, ← allInRange_iff]
    split_ifs with h <;> simp [h, ceil8]
  · simp [outb_unpackResult]
  · simp [outb_nwidthResult]

end Sys2Proof.Machine
end

section
/-! One step of the platform (10_state.md R26; 20_memory.md R42; 60_exceptions.md R117, R119; 70_reset_and_hazards.md R121,
R123): it rests, or it changes the one instance it turns to, as that instance and the event alone say. -/

open Sys2Proof.Stated

namespace Sys2Proof.Machine

/-! ### A platform with one instance changed -/

@[simp] theorem withInst_params (s : State) (k : Nat) (c : Inst) (es : List Event) :
    (withInst s k c es).params = s.params := rfl
@[simp] theorem withInst_cur (s : State) (k : Nat) (c : Inst) (es : List Event) : (withInst s k c es).cur = k := rfl
@[simp] theorem withInst_inputs (s : State) (k : Nat) (c : Inst) (es : List Event) :
    (withInst s k c es).inputs = es := rfl
@[simp] theorem withInst_instances (s : State) (k : Nat) (c : Inst) (es : List Event) :
    (withInst s k c es).instances = s.instances.set k c := rfl

@[simp] theorem withInst_withInst (s : State) (k : Nat) (c c' : Inst) (es es' : List Event) :
    withInst (withInst s k c es) k c' es' = withInst s k c' es' := by
  simp [withInst]

theorem getElem?_withInst_self {s : State} {k : Nat} {c : Inst} (hk : s.instances[k]? = some c) (c' : Inst)
    (es : List Event) : (withInst s k c' es).instances[k]? = some c' :=
  List.getElem?_set_self (List.getElem?_eq_some_iff.mp hk).1

/-- Changing instance `k` by `f`, after turning to it and leaving the events `es`, is writing `f` of what it holds. -/
theorem modifyCur_eq_withInst {s : State} {k : Nat} {c : Inst} (hk : s.instances[k]? = some c) (es : List Event)
    (f : Inst → Inst) : ((s.select k).withInputs es).modifyCur f = withInst s k (f c) es := by
  have hmod : s.instances.modify k f = s.instances.set k (f c) := by
    rw [List.modify_eq_set_getElem?, hk]
    rfl
  exact congrArg (State.mk s.params · k es) hmod

/-- Turning to an instance and leaving the events `es` changes no instance. -/
theorem select_eq_withInst {s : State} {k : Nat} {c : Inst} (hk : s.instances[k]? = some c) (es : List Event) :
    (s.select k).withInputs es = withInst s k c es := by
  obtain ⟨hlt, rfl⟩ := List.getElem?_eq_some_iff.mp hk
  exact congrArg (State.mk s.params · k es) (List.set_getElem_self hlt).symm

/-! ### What a step that goes on does to the instance it turns to -/

/-- What a step from `s` does to instance `k`, which holds `c`: what it holds afterwards, and the events left. -/
inductive Turn (s : State) (k : Nat) (c : Inst) : Inst → List Event → Prop where
  | complete {t : Transaction} {es : List Event} (hp : c.phase = .busy t) (turn : CompletionTurn s k es) :
      Turn s k c (c.complete (respond t)) es
  | nothingToComplete {es : List Event} (hin : s.inputs = .complete k :: es) (hp : c.phase = .idle) : Turn s k c c es
  | offerInReset {t : Transaction} {es : List Event} (hin : s.inputs = .offer k t :: es)
      (hr : c.resetApplied = true) : Turn s k c c es
  | accept {t : Transaction} {es : List Event} (hin : s.inputs = .offer k t :: es) (hr : c.resetApplied = false)
      (hp : c.phase = .idle) (hfit : withinCapacity s.params t = true) : Turn s k c (c.accept t) es
  | applyReset {es : List Event} (hin : s.inputs = .applyReset k :: es) : Turn s k c c.applyReset es
  | releaseReset {es : List Event} (hin : s.inputs = .releaseReset k :: es) : Turn s k c c.releaseReset es

/-- A step that goes on rests with nothing offered and nothing in progress, or changes the one instance it turns to. -/
theorem step_next_cases {s s' : State} (h : step s = .next s') :
    (s.inputs = [] ∧ (∀ c ∈ s.instances, c.phase = .idle) ∧ s' = s) ∨
      ∃ k c c' es, s.instances[k]? = some c ∧ Turn s k c c' es ∧ s' = withInst s k c' es := by
  cases step_cases h with
  | quiet hin hidle => exact .inl ⟨hin, hidle, rfl⟩
  | complete k c t es hk hp turn =>
    refine .inr ⟨k, c, _, es, hk, .complete hp turn, ?_⟩
    rw [respond_eq_emitted, emit_eq_withInst hk]
  | nothingToComplete k c es hin hk hp =>
    exact .inr ⟨k, c, c, es, hk, .nothingToComplete hin hp, select_eq_withInst hk es⟩
  | offerInReset k c t es hin hk hr =>
    exact .inr ⟨k, c, c, es, hk, .offerInReset hin hr, select_eq_withInst hk es⟩
  | accept k c t es hin hk hr hp hfit =>
    exact .inr ⟨k, c, _, es, hk, .accept hin hr hp hfit, modifyCur_eq_withInst hk es _⟩
  | applyReset k c es hin hk => exact .inr ⟨k, c, _, es, hk, .applyReset hin, modifyCur_eq_withInst hk es _⟩
  | releaseReset k c es hin hk => exact .inr ⟨k, c, _, es, hk, .releaseReset hin, modifyCur_eq_withInst hk es _⟩

/-- Settles O49: a step writes one instance over and changes neither the parameters nor the number of instances. -/
theorem stepKeepsConfiguration : Obligations.StepKeepsConfiguration := by
  intro s s' h
  obtain ⟨-, -, rfl⟩ | ⟨k, c, c', es, -, -, rfl⟩ := step_next_cases h
  · exact ⟨rfl, rfl⟩
  · exact ⟨rfl, List.length_set ..⟩

/-- Settles O50: the one instance a step writes is the one selected after it. -/
theorem stepTouchesOneInstance : Obligations.StepTouchesOneInstance := by
  intro s s' j h hj
  obtain ⟨-, -, rfl⟩ | ⟨k, c, c', es, -, -, rfl⟩ := step_next_cases h
  · rfl
  · exact List.getElem?_set_ne (Ne.symm hj)

/-- Settles O45: an instance that is not turned to keeps all it holds, and one that is changes as its turn says. -/
theorem phaseChangesOnlyByThreeSteps : Obligations.PhaseChangesOnlyByThreeSteps := by
  intro s s' j x x' h hx hx'
  by_cases hj : j = s'.cur
  · obtain ⟨-, -, rfl⟩ | ⟨k, c, c', es, hk, hturn, rfl⟩ := step_next_cases h
    · obtain rfl : x = x' := Option.some.inj (hx.symm.trans hx')
      exact .inl ⟨rfl, rfl⟩
    · obtain rfl : j = k := hj
      obtain rfl : x = c := Option.some.inj (hx.symm.trans hk)
      obtain rfl : c' = x' := Option.some.inj ((getElem?_withInst_self hk c' es).symm.trans hx')
      cases hturn with
      | complete hp turn => exact .inr (.inr (.inl ⟨_, hp, rfl, rfl⟩))
      | nothingToComplete hin hp => exact .inl ⟨rfl, rfl⟩
      | offerInReset hin hr => exact .inl ⟨rfl, rfl⟩
      | accept hin hr hp hfit => exact .inr (.inl ⟨_, es, hin, hp, hr, rfl, rfl⟩)
      | applyReset hin => exact .inr (.inr (.inr ⟨es, hin, rfl, rfl⟩))
      | releaseReset hin => exact .inl ⟨rfl, rfl⟩
  · rw [stepTouchesOneInstance s s' j h hj, hx] at hx'
    obtain rfl : x = x' := Option.some.inj hx'
    exact .inl ⟨rfl, rfl⟩

/-- Settles O46: with no event pending a step that is no rest completes an instance, which then has one response more. -/
theorem quietMachineRests : Obligations.QuietMachineRests := by
  refine fun s hin => ⟨fun hidle => ?_, fun h => ?_⟩
  · simp [step, hin, quietStep, firstBusy_eq_none.mpr hidle]
  · obtain ⟨-, hidle, -⟩ | ⟨k, c, c', es, hk, hturn, hs⟩ := step_next_cases h
    · exact hidle
    · have hc : c' = c := Option.some.inj ((getElem?_withInst_self hk c' es).symm.trans (hs ▸ hk))
      cases hturn with
      | complete hp turn => simpa using congrArg (fun x => x.responses.length) hc
      | nothingToComplete hin' _ | offerInReset hin' _ | accept hin' _ _ _ | applyReset hin' | releaseReset hin' =>
        rw [hin] at hin'; cases hin'

/-! ### The invariant of the platform -/

theorem Response.legal_error (e : ErrorKind) : (Response.error e).Legal where
  status_le := by cases e <;> decide
  error_empty _ := ⟨rfl, rfl, rfl⟩
  one_output := .inl rfl
  outs_fit _ hv := nomatch hv

theorem Response.legal_ok {w : NativeWidth} {outb : List Byte} {outs : List Sample} (hone : outb = [] ∨ outs = [])
    (hfit : ∀ v ∈ outs, v.toNat < 2 ^ w.bits) : (Response.ok w outb outs).Legal where
  status_le := Nat.zero_le 4
  error_empty h := absurd rfl h
  one_output := hone
  outs_fit v hv := (hfit v hv).trans_eq (congrArg (2 ^ ·) w.bits_eq_two_pow_tag)

/-- The words UNPACK writes fit the native width (R34). -/
theorem toNat_lt_of_mem_unpackSamples {b : List Byte} {d count : Nat} {so bo : BitOrder} (hd : d ≤ 64) :
    ∀ v ∈ unpackSamples b d so bo count, v.toNat < 2 ^ (nativeWidth d).bits :=
  List.forall_mem_map.mpr fun i _ =>
    (toNat_unpackValue_lt b so bo i hd).trans_le (Nat.pow_le_pow_right Nat.two_pos (le_bits_nativeWidth hd))

/-- What an instruction answers is a response the spec allows. -/
theorem legal_of_instrResult_eq_ok {i : Instr} {t : Transaction} {r : Response} (h : instrResult i t = .ok r) :
    r.Legal := by
  cases i with
  | pack d so bo =>
    obtain ⟨-, rfl⟩ := packResult_eq_ok.mp h
    exact Response.legal_ok (.inr rfl) (List.forall_mem_nil _)
  | packChk d so bo =>
    obtain ⟨-, -, rfl⟩ := packChkResult_eq_ok.mp h
    exact Response.legal_ok (.inr rfl) (List.forall_mem_nil _)
  | unpack d so bo =>
    obtain ⟨hd, -, rfl⟩ := unpackResult_eq_ok.mp h
    exact Response.legal_ok (.inl rfl) (toNat_lt_of_mem_unpackSamples (depthInvalid_eq_false_iff.mp hd).2)
  | nwidth d =>
    obtain ⟨-, rfl⟩ := nwidthResult_eq_ok.mp h
    exact Response.legal_ok (.inl rfl) (List.forall_mem_nil _)

/-- Every response is an error's or an instruction's. -/
theorem respond_cases (t : Transaction) :
    (∃ e, respond t = Response.error e) ∨
      ∃ i, decode t.cmd = .ok i ∧ instrResult i t = .ok (respond t) := by
  unfold respond
  cases hdec : decode t.cmd with
  | error e =>
    rw [execResult_of_decode_error hdec]
    exact .inl ⟨_, rfl⟩
  | ok i =>
    rw [execResult_of_decode_ok hdec]
    cases hres : instrResult i t with
    | error e => exact .inl ⟨e, rfl⟩
    | ok r => exact .inr ⟨i, rfl, hres⟩

theorem respond_legal (t : Transaction) : (respond t).Legal := by
  obtain ⟨e, he⟩ | ⟨i, -, hres⟩ := respond_cases t
  · rw [he]
    exact Response.legal_error e
  · exact legal_of_instrResult_eq_ok hres

/-- No response carries more samples than its transaction counts against `MAX_SAMPLES` (R7). -/
theorem length_outs_respond_le (t : Transaction) : (respond t).outs.length ≤ sampleCount t := by
  obtain ⟨e, he⟩ | ⟨i, hdec, hres⟩ := respond_cases t
  · rw [he]
    exact Nat.zero_le _
  · rw [sampleCount_of_decode_ok hdec]
    cases i with
    | pack d so bo =>
      obtain ⟨-, hr⟩ := packResult_eq_ok.mp hres
      simp [hr, Response.ok, instrSampleCount]
    | packChk d so bo =>
      obtain ⟨-, -, hr⟩ := packChkResult_eq_ok.mp hres
      simp [hr, Response.ok, instrSampleCount]
    | unpack d so bo =>
      obtain ⟨-, -, hr⟩ := unpackResult_eq_ok.mp hres
      simp [hr, Response.ok, instrSampleCount]
    | nwidth d =>
      obtain ⟨-, hr⟩ := nwidthResult_eq_ok.mp hres
      simp [hr, Response.ok, instrSampleCount]

theorem withinBound_mono {bound : Option Nat} {x y : Nat} (hxy : x ≤ y) (hy : withinBound bound y = true) :
    withinBound bound x = true := by
  cases bound with
  | none => rfl
  | some b => exact decide_eq_true (hxy.trans (of_decide_eq_true hy))

/-- The response of a transaction within capacity is within capacity. -/
theorem respond_fits {p : Params} {t : Transaction} (h : withinCapacity p t = true) :
    withinBound p.maxBytes (respond t).outb.length = true ∧
      withinBound p.maxSamples (respond t).outs.length = true := by
  obtain ⟨hsamples, -, houtb, -⟩ := withinCapacity_iff.mp h
  exact ⟨houtb, withinBound_mono (length_outs_respond_le t) hsamples⟩

/-- An instance in order is in order after its turn. -/
theorem Turn.keeps_inv {s : State} {k : Nat} {c c' : Inst} {es : List Event} (h : Turn s k c c' es)
    (hc : c.Inv s.params) : c'.Inv s.params := by
  obtain ⟨hreset, hheld, hlegal, hfit⟩ := hc
  cases h with
  | @complete t _ hp turn =>
    exact ⟨fun _ => rfl, fun u hu => (nomatch hu),
      List.forall_mem_append.mpr ⟨hlegal, List.forall_mem_singleton.mpr (respond_legal t)⟩,
      List.forall_mem_append.mpr ⟨hfit, List.forall_mem_singleton.mpr (respond_fits (hheld t hp))⟩⟩
  | nothingToComplete hin hp => exact ⟨hreset, hheld, hlegal, hfit⟩
  | offerInReset hin hr => exact ⟨hreset, hheld, hlegal, hfit⟩
  | accept hin hr hp hcap =>
    exact ⟨fun h => absurd (hr.symm.trans h) Bool.false_ne_true, fun u hu => Phase.busy.inj hu ▸ hcap, hlegal, hfit⟩
  | applyReset hin => exact ⟨fun _ => rfl, fun u hu => (nomatch hu), hlegal, hfit⟩
  | releaseReset hin => exact ⟨fun h => (nomatch h), hheld, hlegal, hfit⟩

/-- Settles O47: the instance a step turns to is in order after its turn, and every other one is left as it was. -/
theorem stepKeepsInv : Obligations.StepKeepsInv := by
  intro s s' hs h
  obtain ⟨-, -, rfl⟩ | ⟨k, c, c', es, hk, hturn, rfl⟩ := step_next_cases h
  · exact hs
  · obtain ⟨hsome, hlen, -, heach⟩ := hs
    have hlt : k < s.instances.length := (List.getElem?_eq_some_iff.mp hk).1
    refine ⟨hsome, (List.length_set ..).trans hlen, hlt.trans_eq (List.length_set ..).symm, fun x hx => ?_⟩
    obtain hx | rfl := List.mem_or_eq_of_mem_set hx
    · exact heach x hx
    · exact hturn.keeps_inv (heach c (List.mem_of_getElem? hk))

/-- Settles O48: every instance starts at reset, which meets each clause with no transaction and no response. -/
theorem resetStateMeetsInv : Obligations.ResetStateMeetsInv := by
  have hinst : ∀ p : Params, ∀ c ∈ (State.resetOf p).instances, c = Inst.reset := fun p c hc =>
    List.eq_of_mem_replicate hc
  have hlen : ∀ p : Params, (State.resetOf p).instances.length = p.numInstances := fun p => List.length_replicate
  have hinv : ∀ p : Params, 1 ≤ p.numInstances → (State.resetOf p).Inv := fun p hp =>
    ⟨hp, hlen p, Nat.lt_of_lt_of_eq hp (hlen p).symm, fun c hc => hinst p c hc ▸
      ⟨fun _ => rfl, fun t ht => (nomatch ht), fun r hr => (nomatch hr), fun r hr => (nomatch hr)⟩⟩
  exact ⟨hinv, fun p => ⟨rfl, rfl, hlen p, fun c hc => hinst p c hc ▸ ⟨rfl, rfl, rfl⟩⟩, hinv _ (Nat.le_refl 1)⟩

end Sys2Proof.Machine
end

section
/-! Events and runs (10_state.md R26; 20_memory.md R42; 60_exceptions.md R117; 70_reset_and_hazards.md R121 to R123, R129):
what each event does to its instance, where a step stops, the responses of a program, and how long until the machine is
quiet. -/

open Sys2Proof.Stated

namespace Sys2Proof.Machine

/-! ### A completion runs the decoded instruction -/

/-- After turning to an instance and leaving the events `es`, what is held is what that instance holds. -/
theorem held_select_withInputs {s : State} {k : Nat} {c : Inst} (hk : s.instances[k]? = some c) (es : List Event) :
    ((s.select k).withInputs es).held = c.phase.held := by
  rw [State.held_withInputs, held_select hk]

/-- Settles O40: the completion event leads to `completeCur` with the instance selected, which holds the transaction. -/
theorem stepRunsDecodedInstruction : Obligations.StepRunsDecodedInstruction := by
  intro s k c t es hin hk hp
  have hheld : ((s.select k).withInputs es).held = some t := by rw [held_select_withInputs hk, hp, Phase.held]
  have hstep : step s = completeCur ((s.select k).withInputs es) := step_of_event hin hk
  refine ⟨fun i hdec => ?_, fun e hdec => ?_⟩ <;> simp only [hstep, completeCur, hheld, hdec]

/-- Settles O42: what the machine emits through its decoder is `Exec(t)`. -/
theorem completionEmitsExec : Obligations.CompletionEmitsExec := by
  intro s k c t es hin hk hp
  rw [step_complete_busy hin hk hp, respond_eq_emitted]
  rfl

theorem getLast?_responses_of_complete {s s' : State} {k : Nat} {c c' : Inst} {t : Transaction} {es : List Event}
    (hin : s.inputs = .complete k :: es) (hk : s.instances[k]? = some c) (hp : c.phase = .busy t)
    (hstep : step s = .next s') (hk' : s'.instances[k]? = some c') : c'.responses.getLast? = some (respond t) := by
  rw [completionEmitsExec s k c t es hin hk hp] at hstep
  cases hstep
  rw [getElem?_withInst_self hk] at hk'
  cases hk'
  exact List.getLast?_concat

/-- Settles O52: both instances have `Exec(t)` added at the end. -/
theorem responseDependsOnTransactionAlone : Obligations.ResponseDependsOnTransactionAlone := by
  intro s1 s2 s1' s2' k1 k2 c1 c2 c1' c2' t es1 es2 hin1 hin2 hk1 hk2 hp1 hp2 hstep1 hstep2 hk1' hk2'
  rw [getLast?_responses_of_complete hin1 hk1 hp1 hstep1 hk1', getLast?_responses_of_complete hin2 hk2 hp2 hstep2 hk2']
  exact ⟨rfl, Option.some_ne_none _⟩

/-- The placed command is the transaction in progress of the present instance (log entry 8). -/
theorem getElem?_withFetchWord_cur {s : State} (nbits w : Nat) (hlt : s.cur < s.instances.length) :
    ∃ c t, (s.withFetchWord nbits w).instances[s.cur]? = some c ∧ c.phase = .busy t ∧
      t.cmd = BitVec.ofNat 16 (w % 2 ^ nbits) := by
  refine ⟨_, _, State.getElem?_modifyCur_self _ (List.getElem?_eq_getElem hlt), rfl, ?_⟩
  cases s.held <;> rfl

theorem decode_of_decodeTableWord {nbits w : Nat} {i : Instr} (h : decodeTableWord nbits w = some i) :
    decode (BitVec.ofNat 16 (w % 2 ^ nbits)) = .ok i := by
  unfold decodeTableWord at h
  split_ifs at h
  cases hdec : decode (BitVec.ofNat 16 (w % 2 ^ nbits)) with
  | error e => simp [hdec] at h
  | ok j => simpa [hdec] using h

/-- Settles O41: the placed transaction's completion is the next event, and its instruction ends that transaction. -/
theorem placedWordRunsNext : Obligations.PlacedWordRunsNext := by
  intro s nbits w i hlt htable
  obtain ⟨c, t, hc, hp, hcmd⟩ := getElem?_withFetchWord_cur nbits w hlt
  have hexec : step (s.withFetchWord nbits w) = exec i ((s.withFetchWord nbits w).withInputs s.inputs) :=
    (stepRunsDecodedInstruction _ s.cur c t s.inputs rfl hc hp).1 i (hcmd ▸ decode_of_decodeTableWord htable)
  obtain ⟨s', hs'⟩ := (execNeedsHeldTransaction i ((s.withFetchWord nbits w).withInputs s.inputs)).1.mpr
    ⟨t, State.held_eq_some.mpr ⟨c, hc, hp⟩⟩
  obtain ⟨hparams, hinputs, hcur, -⟩ := instructionFrame i _ s' hs'
  exact ⟨s', hexec.trans hs', hs', hinputs, hparams, hcur⟩

/-! ### One event as a function of its instance -/

/-- What the event `e` does to the instance it concerns, which holds `c`, with the events `es` after it: what the instance
holds then and the events left, or the refusal. -/
def instEvent (p : Params) (c : Inst) (e : Event) (es : List Event) : Except Refusal (Inst × List Event) :=
  match e with
  | .offer _ t =>
    if c.resetApplied then .ok (c, es)
    else
      match c.phase with
      | .busy u => .ok (c.complete (respond u), e :: es)
      | .idle => if withinCapacity p t then .ok (c.accept t, es) else .error .overCapacity
  | .complete _ =>
    match c.phase with
    | .busy u => .ok (c.complete (respond u), es)
    | .idle => .ok (c, es)
  | .applyReset _ => .ok (c.applyReset, es)
  | .releaseReset _ => .ok (c.releaseReset, es)

/-- The outcome of a step at which instance `k` meets its event. -/
def eventOutcome (s : State) (k : Nat) : Except Refusal (Inst × List Event) → Host.Outcome State Fault Refusal
  | .ok (c, es) => .next (withInst s k c es)
  | .error r => .refused r

/-- Completing on instance `k`, which is busy with `t`, with the events `es` left. -/
theorem completeCur_of_busy {s : State} {k : Nat} {c : Inst} {t : Transaction} (hk : s.instances[k]? = some c)
    (hp : c.phase = .busy t) (es : List Event) :
    completeCur ((s.select k).withInputs es) = .next (withInst s k (c.complete (respond t)) es) := by
  have hheld : ((s.select k).withInputs es).held = some t := by rw [held_select_withInputs hk, hp, Phase.held]
  rw [completeCur_of_held hheld, emit_eq_withInst hk, respond_eq_emitted]

/-- Completing on instance `k`, which is idle, with the events `es` left. -/
theorem completeCur_of_idle {s : State} {k : Nat} {c : Inst} (hk : s.instances[k]? = some c) (hp : c.phase = .idle)
    (es : List Event) : completeCur ((s.select k).withInputs es) = .next (withInst s k c es) := by
  have hheld : ((s.select k).withInputs es).held = none := by rw [held_select_withInputs hk, hp, Phase.held]
  rw [completeCur_of_not_held hheld, select_eq_withInst hk]

/-- A step on an event does to the event's instance what `instEvent` says, and nothing else. -/
theorem step_event {s : State} {e : Event} {es : List Event} {c : Inst} (hin : s.inputs = e :: es)
    (hk : s.instances[e.target]? = some c) :
    step s = eventOutcome s e.target (instEvent s.params c e es) := by
  rw [step_of_event hin hk]
  cases e with
  | offer k t =>
    cases hr : c.resetApplied with
    | true =>
      simp only [eventCur, offerCur, instEvent, hr, if_true]
      exact congrArg Host.Outcome.next (select_eq_withInst hk es)
    | false =>
      simp only [eventCur, offerCur, instEvent, hr, Bool.false_eq_true, if_false, ← hin]
      cases hp : c.phase with
      | idle =>
        cases hfit : withinCapacity s.params t with
        | true =>
          simp only [State.select_params, hfit, if_true]
          exact congrArg Host.Outcome.next (modifyCur_eq_withInst hk es (·.accept t))
        | false => simp [hfit, eventOutcome]
      | busy u => exact completeCur_of_busy hk hp s.inputs
  | complete k =>
    cases hp : c.phase with
    | idle =>
      simp only [eventCur, instEvent, hp]
      exact completeCur_of_idle hk hp es
    | busy t =>
      simp only [eventCur, instEvent, hp]
      exact completeCur_of_busy hk hp es
  | applyReset k => exact congrArg Host.Outcome.next (modifyCur_eq_withInst hk es Inst.applyReset)
  | releaseReset k => exact congrArg Host.Outcome.next (modifyCur_eq_withInst hk es Inst.releaseReset)

/-- Settles O51: what the event does is a function of the parameters, the event and its instance. -/
theorem instancesCannotObserveEachOther : Obligations.InstancesCannotObserveEachOther := by
  intro s1 s2 s1' s2' e es hparams hin1 hin2 hinst hstep1 hstep2
  cases hk1 : s1.instances[e.target]? with
  | none => simp [step, hin1, handleEvent, State.inst, hk1] at hstep1
  | some c =>
    have hk2 : s2.instances[e.target]? = some c := hinst ▸ hk1
    rw [step_event hin1 hk1, hparams] at hstep1
    rw [step_event hin2 hk2] at hstep2
    cases hev : instEvent s2.params c e es with
    | error r => rw [hev] at hstep1; cases hstep1
    | ok x =>
      rw [hev] at hstep1 hstep2
      cases hstep1
      cases hstep2
      exact ⟨(getElem?_withInst_self hk1 _ _).trans (getElem?_withInst_self hk2 _ _).symm, rfl⟩

/-! ### Each event of an instance -/

section Events

variable {s : State} {k : Nat} {c : Inst} {t u : Transaction} {es : List Event}

theorem step_offer_idle (hin : s.inputs = .offer k t :: es) (hk : s.instances[k]? = some c)
    (hr : c.resetApplied = false) (hp : c.phase = .idle) (hfit : withinCapacity s.params t = true) :
    step s = .next (withInst s k (c.accept t) es) := by
  rw [step_event hin hk]
  simp [instEvent, eventOutcome, hr, hp, hfit, Event.target]

theorem step_offer_over_capacity (hin : s.inputs = .offer k t :: es) (hk : s.instances[k]? = some c)
    (hr : c.resetApplied = false) (hp : c.phase = .idle) (hfit : withinCapacity s.params t = false) :
    step s = .refused .overCapacity := by
  rw [step_event hin hk]
  simp [instEvent, eventOutcome, hr, hp, hfit]

theorem step_offer_busy (hin : s.inputs = .offer k t :: es) (hk : s.instances[k]? = some c)
    (hr : c.resetApplied = false) (hp : c.phase = .busy u) :
    step s = .next (withInst s k (c.complete (respond u)) s.inputs) := by
  rw [step_event hin hk]
  simp [instEvent, eventOutcome, hr, hp, hin, Event.target]

theorem step_offer_in_reset (hin : s.inputs = .offer k t :: es) (hk : s.instances[k]? = some c)
    (hr : c.resetApplied = true) : step s = .next (withInst s k c es) := by
  rw [step_event hin hk]
  simp [instEvent, eventOutcome, hr, Event.target]

theorem step_applyReset (hin : s.inputs = .applyReset k :: es) (hk : s.instances[k]? = some c) :
    step s = .next (withInst s k c.applyReset es) := step_event hin hk

theorem step_releaseReset (hin : s.inputs = .releaseReset k :: es) (hk : s.instances[k]? = some c) :
    step s = .next (withInst s k c.releaseReset es) := step_event hin hk

end Events

/-- Settles O43: an idle instance accepts the offer; a busy one completes and leaves it where it was. -/
theorem acceptOnlyWhenIdle : Obligations.AcceptOnlyWhenIdle := by
  intro s k c t es hin hk hr
  exact ⟨fun hp hfit => step_offer_idle hin hk hr hp hfit, fun u hp => step_offer_busy hin hk hr hp⟩

/-! ### Runs -/

theorem run_succ_of_step {M : Host.Core} {s s' : M.State} (h : M.step s = .next s') (n : Nat) :
    M.run (n + 1) s = M.run n s' := by
  rw [Host.Core.run, h]

/-- A run that begins with one step of the platform. -/
theorem run_cons {s s1 s' : State} {n : Nat} (h : step s = .next s1)
    (hrun : Host.Core.run Sys2Proof.core n s1 = .next s') : Host.Core.run Sys2Proof.core (n + 1) s = .next s' :=
  (run_succ_of_step (M := Sys2Proof.core) h n).trans hrun

/-- A transaction offered to an idle instance, its completion due, is accepted and completes. -/
theorem run_offer_complete {s s' : State} {k : Nat} {c : Inst} {t : Transaction} {es : List Event} {n : Nat}
    (hin : s.inputs = .offer k t :: .complete k :: es) (hk : s.instances[k]? = some c) (hr : c.resetApplied = false)
    (hp : c.phase = .idle) (hfit : withinCapacity s.params t = true)
    (hrun : Host.Core.run Sys2Proof.core n (withInst s k (c.complete (respond t)) es) = .next s') :
    Host.Core.run Sys2Proof.core (n + 2) s = .next s' := by
  have hcomplete := completionEmitsExec (withInst s k (c.accept t) (.complete k :: es)) k (c.accept t) t es rfl
    (getElem?_withInst_self hk _ _) rfl
  rw [withInst_withInst] at hcomplete
  exact run_cons (step_offer_idle hin hk hr hp hfit) (run_cons hcomplete hrun)

/-- Settles O44: the events of each clause, one step after the other. -/
theorem resetAbortsWithoutResponse : Obligations.ResetAbortsWithoutResponse := by
  intro s k c es hk
  refine ⟨fun hin => step_applyReset hin hk, fun t hr hin => step_offer_in_reset hin hk hr,
    fun t hp hin hfit => ?_, fun t _ hin hfit => ?_⟩
  · refine run_cons (step_releaseReset hin hk)
      (run_cons (step_offer_idle rfl (getElem?_withInst_self hk _ _) rfl hp hfit) ?_)
    rw [withInst_withInst]
    rfl
  · refine run_cons (step_applyReset hin hk) (run_cons (step_releaseReset rfl (getElem?_withInst_self hk _ _)) ?_)
    rw [withInst_withInst]
    refine run_offer_complete rfl (getElem?_withInst_self hk _ _) rfl rfl hfit ?_
    rw [withInst_withInst]
    rfl

/-- Settles O55: each transaction in turn is accepted and completes, which leaves the program that is left. -/
theorem programRespondsInOrder : Obligations.ProgramRespondsInOrder := by
  intro s k c ts hk hp hr hin hfit
  induction ts generalizing s c with
  | nil =>
    obtain ⟨hlt, rfl⟩ := List.getElem?_eq_some_iff.mp hk
    refine ⟨s, rfl, hin, rfl, ?_⟩
    rw [List.map_nil, List.append_nil]
    exact (List.set_getElem_self hlt).symm
  | cons t ts ih =>
    obtain ⟨hfitt, hfits⟩ := List.forall_mem_cons.mp hfit
    obtain ⟨s', hrun, hnil, hparams, hinst⟩ :=
      ih (withInst s k (c.complete (respond t)) _) _ (getElem?_withInst_self hk _ _) rfl hr rfl hfits
    refine ⟨s', run_offer_complete hin hk hr hp hfitt hrun, hnil, hparams, ?_⟩
    rw [hinst, withInst_instances, List.set_set]
    simp [hp]

/-! ### Where a step stops -/

theorem step_goes_on_of_no_input {s : State} (hin : s.inputs = []) : ∃ s', step s = .next s' := by
  cases hb : firstBusy s with
  | none => exact ⟨s, by simp [step, hin, quietStep, hb]⟩
  | some k =>
    obtain ⟨c, t, hk, hp⟩ := firstBusy_eq_some hb
    exact ⟨_, (step_of_no_input hin hb).trans (completeCur_of_busy hk hp s.inputs)⟩

theorem step_of_length_le_target {s : State} {e : Event} {es : List Event} (hin : s.inputs = e :: es)
    (h : s.instances.length ≤ e.target) : step s = .refused .noSuchInstance := by
  simp [step, hin, handleEvent, State.inst, List.getElem?_eq_none h]

/-- An event is refused only as an offer over capacity that would be accepted. -/
theorem of_instEvent_eq_error {p : Params} {c : Inst} {e : Event} {es : List Event} {r : Refusal}
    (h : instEvent p c e es = .error r) :
    ∃ k t, e = .offer k t ∧ c.resetApplied = false ∧ c.phase = .idle ∧ withinCapacity p t = false := by
  cases e with
  | offer k t =>
    simp only [instEvent] at h
    split at h
    · cases h
    · rename_i hr
      split at h
      · cases h
      · rename_i hp
        split at h
        · cases h
        · rename_i hfit
          exact ⟨k, t, rfl, by simpa using hr, hp, by simpa using hfit⟩
  | complete k => cases hp : c.phase <;> simp [instEvent, hp] at h
  | applyReset k => cases h
  | releaseReset k => cases h

/-- The next event names an instance the platform does not hold. -/
def MissingInstance (s : State) : Prop := ∃ e es, s.inputs = e :: es ∧ s.instances.length ≤ e.target

/-- The next event offers a transaction over capacity where it would be accepted. -/
def OverCapacityOffer (s : State) : Prop :=
  ∃ k t es c, s.inputs = .offer k t :: es ∧ s.instances[k]? = some c ∧ c.resetApplied = false ∧ c.phase = .idle ∧
    withinCapacity s.params t = false

/-- A step goes on, or one of the two refusals stops it. -/
theorem step_outcome (s : State) :
    (∃ s', step s = .next s') ∨ (MissingInstance s ∧ step s = .refused .noSuchInstance) ∨
      (OverCapacityOffer s ∧ step s = .refused .overCapacity) := by
  cases hin : s.inputs with
  | nil => exact .inl (step_goes_on_of_no_input hin)
  | cons e es =>
    obtain hlen | hlt := le_or_gt s.instances.length e.target
    · exact .inr (.inl ⟨⟨e, es, hin, hlen⟩, step_of_length_le_target hin hlen⟩)
    · have hk := List.getElem?_eq_getElem hlt
      cases hev : instEvent s.params s.instances[e.target] e es with
      | ok x => exact .inl ⟨_, (step_event hin hk).trans (congrArg (eventOutcome s e.target) hev)⟩
      | error r =>
        obtain ⟨k, t, rfl, hr, hp, hfit⟩ := of_instEvent_eq_error hev
        exact .inr (.inr ⟨⟨k, t, es, _, hin, hk, hr, hp, hfit⟩, step_offer_over_capacity hin hk hr hp hfit⟩)

/-- Settles O53: the three outcomes of a step exclude each other. -/
theorem stepStopsOnlyWhereRefused : Obligations.StepStopsOnlyWhereRefused := by
  intro s
  have houtcome := step_outcome s
  refine ⟨?_, ⟨fun h => ?_, fun ⟨e, es, hin, hlen⟩ => step_of_length_le_target hin hlen⟩,
    ⟨fun h => ?_, fun ⟨k, t, es, c, hin, hk, hr, hp, hfit⟩ => step_offer_over_capacity hin hk hr hp hfit⟩⟩
  · obtain ⟨s', hs⟩ | ⟨-, hs⟩ | ⟨-, hs⟩ := houtcome <;> simp [hs, SafeOutcome]
  · have hmissing : MissingInstance s := by simpa [h] using houtcome
    exact hmissing
  · have hover : OverCapacityOffer s := by simpa [h] using houtcome
    exact hover

/-! ### Until the machine is quiet -/

/-- Every event pending is one the platform can take. -/
def AllAcceptable (s : State) : Prop := ∀ e ∈ s.inputs, e.Acceptable s

/-- With acceptable events nothing is refused. -/
theorem AllAcceptable.step_goes_on {s : State} (h : AllAcceptable s) : ∃ s', step s = .next s' := by
  obtain hnext | ⟨⟨e, es, hin, hlen⟩, -⟩ | ⟨⟨k, t, es, c, hin, -, -, -, hfit⟩, -⟩ := step_outcome s
  · exact hnext
  · have hlt := (h e (hin ▸ List.mem_cons_self)).1
    omega
  · have hcap := (h _ (hin ▸ List.mem_cons_self)).2 k t rfl
    exact absurd (hfit.symm.trans hcap) Bool.false_ne_true

/-- A turn adds no event. -/
theorem Turn.inputs_subset {s : State} {k : Nat} {c c' : Inst} {es : List Event} (h : Turn s k c c' es) :
    es ⊆ s.inputs := by
  cases h with
  | complete hp turn =>
    obtain ⟨-, rfl⟩ | hin | ⟨t, rest, -, rfl⟩ := turn
    · exact List.nil_subset _
    · exact hin ▸ List.subset_cons_self ..
    · exact List.Subset.refl _
  | nothingToComplete hin _ | offerInReset hin _ | accept hin _ _ _ | applyReset hin | releaseReset hin =>
    exact hin ▸ List.subset_cons_self ..

theorem inputs_subset_of_step {s s' : State} (h : step s = .next s') : s'.inputs ⊆ s.inputs := by
  obtain ⟨-, -, rfl⟩ | ⟨k, c, c', es, -, hturn, rfl⟩ := step_next_cases h
  · exact List.Subset.refl _
  · exact hturn.inputs_subset

theorem AllAcceptable.of_step {s s' : State} (h : AllAcceptable s) (hs : step s = .next s') : AllAcceptable s' := by
  obtain ⟨hparams, hlen⟩ := stepKeepsConfiguration s s' hs
  intro e he
  rw [Event.Acceptable, hparams, hlen]
  exact h e (inputs_subset_of_step hs he)

/-- Writing instance `k` over changes the number of BUSY instances by that instance alone. -/
theorem busyCount_withInst {s : State} {k : Nat} {c : Inst} (hk : s.instances[k]? = some c) (c' : Inst)
    (es : List Event) :
    busyCount (withInst s k c' es) + c.phase.isBusy.toNat = busyCount s + c'.phase.isBusy.toNat := by
  obtain ⟨hlt, rfl⟩ := List.getElem?_eq_some_iff.mp hk
  have hle : s.instances[k].phase.isBusy.toNat ≤ busyCount s := by
    cases hb : s.instances[k].phase.isBusy with
    | false => exact Nat.zero_le _
    | true => exact List.countP_pos_iff.mpr ⟨_, List.getElem_mem hlt, hb⟩
  have hset : busyCount (withInst s k c' es) =
      busyCount s - s.instances[k].phase.isBusy.toNat + c'.phase.isBusy.toNat := by
    simp only [busyCount, withInst_instances, List.countP_set hlt, Bool.toNat, Bool.cond_eq_ite]
  omega

theorem CompletionTurn.length_le {s : State} {k : Nat} {es : List Event} (h : CompletionTurn s k es) :
    es.length ≤ s.inputs.length := by
  obtain ⟨-, rfl⟩ | hin | ⟨t, rest, -, rfl⟩ := h
  · exact Nat.zero_le _
  · rw [hin]
    exact Nat.le_succ _
  · exact Nat.le_refl _

/-- Every turn takes work away. -/
theorem Turn.work_lt {s : State} {k : Nat} {c c' : Inst} {es : List Event} (h : Turn s k c c' es)
    (hk : s.instances[k]? = some c) : work (withInst s k c' es) < work s := by
  have hbusy := busyCount_withInst hk c' es
  have hc : c.phase.isBusy.toNat ≤ 1 := Bool.toNat_le _
  cases h with
  | complete hp turn =>
    rw [hp, Inst.complete_phase, Phase.isBusy, Phase.isBusy, Bool.toNat_true, Bool.toNat_false] at hbusy
    have hes : es.length ≤ s.inputs.length := turn.length_le
    simp only [work, withInst_inputs]
    omega
  | accept hin _ hp _ =>
    rw [hp, Inst.accept_phase, Phase.isBusy, Phase.isBusy, Bool.toNat_true, Bool.toNat_false] at hbusy
    simp only [work, withInst_inputs, hin, List.length_cons]
    omega
  | applyReset hin =>
    rw [Inst.applyReset_phase, Phase.isBusy, Bool.toNat_false] at hbusy
    simp only [work, withInst_inputs, hin, List.length_cons]
    omega
  | nothingToComplete hin _ | offerInReset hin _ | releaseReset hin =>
    simp only [work, withInst_inputs, hin, List.length_cons, Inst.releaseReset_phase] at hbusy ⊢
    omega

/-- A step rests on a quiet machine, or takes work away. -/
theorem quiet_or_work_lt_of_step {s s' : State} (h : step s = .next s') : s.Quiet ∨ work s' < work s := by
  obtain ⟨hin, hidle, -⟩ | ⟨k, c, c', es, hk, hturn, rfl⟩ := step_next_cases h
  · exact .inl ⟨hin, hidle⟩
  · exact .inr (hturn.work_lt hk)

/-- A quiet machine stays as it is however long it runs (R119). -/
theorem State.Quiet.run_eq {s : State} (h : s.Quiet) (n : Nat) : Host.Core.run Sys2Proof.core n s = .next s := by
  induction n with
  | zero => rfl
  | succ n ih => exact run_cons ((quietMachineRests s h.1).mp h.2) ih

/-- With acceptable events any run of at least `work s` steps ends quiet. -/
theorem AllAcceptable.run_quiet {n : Nat} {s : State} (h : AllAcceptable s) (hn : work s ≤ n) :
    ∃ s', Host.Core.run Sys2Proof.core n s = .next s' ∧ s'.Quiet := by
  induction n generalizing s with
  | zero =>
    obtain ⟨s1, hs⟩ := h.step_goes_on
    obtain hquiet | hlt := quiet_or_work_lt_of_step hs
    · exact ⟨s, rfl, hquiet⟩
    · omega
  | succ n ih =>
    obtain ⟨s1, hs⟩ := h.step_goes_on
    obtain hquiet | hlt := quiet_or_work_lt_of_step hs
    · exact ⟨s, hquiet.run_eq _, hquiet⟩
    · obtain ⟨s', hrun, hquiet⟩ := ih (h.of_step hs) (by omega)
      exact ⟨s', run_cons hs hrun, hquiet⟩

/-- Settles O56: no step is refused, and each takes work away until the machine is quiet. -/
theorem machineBecomesQuiet : Obligations.MachineBecomesQuiet := fun _ h => AllAcceptable.run_quiet h le_rfl

/-- Across a step with no reset of it pending, a busy instance completes or keeps its transaction. -/
theorem busy_of_step {s s' : State} {k : Nat} {c : Inst} {t : Transaction} (h : step s = .next s')
    (hk : s.instances[k]? = some c) (hp : c.phase = .busy t) (hreset : Event.applyReset k ∉ s.inputs) :
    ∃ c', s'.instances[k]? = some c' ∧
      ((c'.phase = .idle ∧ c'.responses = c.responses ++ [respond t]) ∨
        (c'.phase = .busy t ∧ c'.responses = c.responses)) := by
  obtain ⟨-, hlen⟩ := stepKeepsConfiguration s s' h
  have hlt : k < s'.instances.length := (List.getElem?_eq_some_iff.mp hk).1.trans_eq hlen.symm
  have hk' := List.getElem?_eq_getElem hlt
  refine ⟨_, hk', ?_⟩
  obtain ⟨hp', hr'⟩ | ⟨u, es, -, hidle, -⟩ | ⟨u, hu, hp', hr'⟩ | ⟨es, hin, -⟩ :=
    phaseChangesOnlyByThreeSteps s s' k c _ h hk hk'
  · exact .inr ⟨hp'.trans hp, hr'⟩
  · cases hidle.symm.trans hp
  · cases hu.symm.trans hp
    exact .inl ⟨hp', hr'⟩
  · exact absurd (hin ▸ List.mem_cons_self) hreset

/-- Settles O57: as long as its transaction is in progress the machine is not quiet, so each step takes work away. -/
theorem acceptedTransactionCompletes : Obligations.AcceptedTransactionCompletes := by
  intro s k c t hacc hk hp hreset
  induction hw : work s using Nat.strong_induction_on generalizing s c with
  | _ w ih =>
    subst hw
    obtain ⟨s1, hs⟩ := AllAcceptable.step_goes_on hacc
    have hlt : work s1 < work s := (quiet_or_work_lt_of_step hs).resolve_left fun hquiet =>
      nomatch (hquiet.2 c (List.mem_of_getElem? hk)).symm.trans hp
    obtain ⟨c1, hk1, ⟨hp1, hr1⟩ | ⟨hp1, hr1⟩⟩ := busy_of_step hs hk hp hreset
    · exact ⟨1, s1, c1, by omega, run_cons hs rfl, hk1, hp1, hr1⟩
    · obtain ⟨n, s', c', hn, hrun, hk', hp', hr'⟩ := ih _ hlt s1 c1 (AllAcceptable.of_step hacc hs) hk1 hp1
        (fun hmem => hreset (inputs_subset_of_step hs hmem)) rfl
      exact ⟨n + 1, s', c', by omega, run_cons hs hrun, hk', hp', hr1 ▸ hr'⟩

end Sys2Proof.Machine
end
